-- ==== Sys2Proof/Word.lean ====
section
/-! DEFINITION. The word and the byte of the block: 00_scope.md R8 ("A word is 32 bits. A byte is 8 bits"). -/

namespace Sys2Proof

/-- A 32-bit word (00_scope.md R8). Every register of the window is one word wide (10_state.md R23). -/
abbrev Word := BitVec 32

/-- An 8-bit byte (00_scope.md R8). -/
abbrev Byte := BitVec 8

/-- A window offset: the window has 4096 bytes, so an offset is 12 bits (20_memory.md R50, R52). -/
abbrev Offset := BitVec 12

end Sys2Proof
end

