-- ==== Sys2Proof/Syntax.lean ====
section
/-! DEFINITION. The command words of the block (30_encoding.md R71), and the shape of a bus access
(00_scope.md R9, 30_encoding.md R80). -/

namespace Sys2Proof

/-- One constructor per row of spec/opcode_table.json. A command word carries no operand and no immediate
(30_encoding.md R74), so no constructor has an argument. -/
inductive Instr where
  /-- `NOP`, command word 0x00000000 (41_commands.md R131). -/
  | nop
  /-- `HMAC`, command word 0x00000001 (41_commands.md R132). -/
  | hmac
  /-- `ZEROIZE`, command word 0x00000002 (41_commands.md R137). -/
  | zeroize
  deriving DecidableEq, Repr

/-- A bus access inside the window, `BusRead(off, n)` or `BusWrite(off, n, v)` (00_scope.md R9). -/
structure Access where
  /-- The master that issues it: a label only, the block serves every master by the same rules
  (20_memory.md R63, 60_exceptions.md R210; log 8). -/
  master : Nat
  /-- The window offset. -/
  off : Offset
  /-- The width n of the access, in bytes. -/
  bytes : Nat
  /-- `none` for a read, `some v` for a write of v. Where n is not 4 the value has no effect (20_memory.md R55), so a
  word is enough to hold it (log 8). -/
  write : Option Word
  deriving DecidableEq, Repr

/-- A bus access by platform address, `MemRead(addr, n)` or `MemWrite(addr, n, v)` (00_scope.md R9). -/
structure PlatformAccess where
  master : Nat
  addr : Nat
  bytes : Nat
  write : Option Word
  deriving DecidableEq, Repr

end Sys2Proof
end

