-- ==== Sys2Proof/WellFormed.lean ====
section
/-! DEFINITION. Which instructions and which accesses are well formed. -/

namespace Sys2Proof

/-- Every command is well formed: it has no operand that could be out of range (30_encoding.md R74). -/
def Instr.wellFormed : Instr → Bool
  | .nop => true
  | .hmac => true
  | .zeroize => true

/-- The width check of 20_memory.md R55: n = 4. -/
def Access.widthOk (a : Access) : Bool := a.bytes == 4

/-- The alignment check of 20_memory.md R55: `off[1:0] = 00`. -/
def Access.aligned (a : Access) : Bool := a.off.extractLsb' 0 2 == 0#2

/-- "Every access must be a 32-bit access (n = 4) with off[1:0] = 00" (20_memory.md R55). -/
def Access.wellFormed (a : Access) : Bool := a.widthOk && a.aligned

end Sys2Proof
end

