-- ==== Sys2Proof/Decode.lean ====
section
/-! DEFINITION. The command decoder and encoder (30_encoding.md R70 to R73). The decoder is total on every 32-bit word
and names the reason for which a word is reserved. -/

namespace Sys2Proof

/-- Why a command word is reserved (30_encoding.md R72, R73). -/
inductive ReservedReason where
  /-- `RSV`, bits 31:4, is not zero, whatever `OP`. -/
  | reservedBits
  /-- `RSV` is zero and `OP` is one of 0x3 to 0xF. -/
  | reservedOp
  deriving DecidableEq, Repr

/-- What a command word decodes to (30_encoding.md R72): a command, or Reserved. -/
inductive Decoded where
  | instr (i : Instr)
  | reserved (why : ReservedReason)
  deriving DecidableEq, Repr

/-- Whether the word is reserved (30_encoding.md R73). -/
def Decoded.isReserved : Decoded → Bool
  | .instr _ => false
  | .reserved _ => true

/-- Field `OP`, bits 3:0 of a command word (30_encoding.md R70). -/
def opField (w : Word) : BitVec 4 := w.extractLsb' 0 4

/-- Field `RSV`, bits 31:4 of a command word (30_encoding.md R70). -/
def rsvField (w : Word) : BitVec 28 := w.extractLsb' 4 28

/-- `Decode(w)` of 30_encoding.md R72. -/
def decode (w : Word) : Decoded :=
  if rsvField w ≠ 0 then .reserved .reservedBits
  else if opField w = 0x0 then .instr .nop
  else if opField w = 0x1 then .instr .hmac
  else if opField w = 0x2 then .instr .zeroize
  else .reserved .reservedOp

/-- The `OP` value of each command (30_encoding.md R71). -/
def opcode : Instr → BitVec 4
  | .nop => 0x0
  | .hmac => 0x1
  | .zeroize => 0x2

/-- The command word of a command: `RSV` = 0 above its `OP` (30_encoding.md R70, R71). -/
def encode (i : Instr) : Word := 0#28 ++ opcode i

/-- The column `match` of the opcode map (30_encoding.md R71), row by row as the table gives it. -/
def rowMatch : Instr → Word
  | .nop => 0x00000000
  | .hmac => 0x00000001
  | .zeroize => 0x00000002

/-- The column `mask` of the opcode map (30_encoding.md R71): every row fixes all 32 bits. -/
def rowMask (_ : Instr) : Word := 0xFFFFFFFF

/-- A command word whose lowest `nbits` bits are those of `w`, every bit above them 0. A command word is one 32-bit word
taken whole from the bus (30_encoding.md R70), so no byte order enters. -/
def tableWord (nbits w : Nat) : Word := (BitVec.ofNat nbits w).setWidth 32

/-- The command the decoder reads from a word numbered as spec/opcode_table.json numbers it. No command is longer than
32 bits (30_encoding.md R70), so a longer one is refused. -/
def decodeTableWord (nbits w : Nat) : Option Instr :=
  if nbits ≤ 32 then
    match decode (tableWord nbits w) with
    | .instr i => some i
    | .reserved _ => none
  else none

end Sys2Proof
end

