-- ==== Sys2Proof/Config.lean ====
section
/-! DEFINITION. What is fixed for the block (00_scope.md R7) and the values the spec leaves open. An open value is a
constant without a body: no proof can see what it is, so a statement holds whatever it is. -/

namespace Sys2Proof.Config

/-- `B`, the HMAC block size in bytes (00_scope.md R7). -/
def blockBytes : Nat := 64

/-- `KEY_MAX`, the longest key the block takes, in bytes (00_scope.md R7). -/
def keyMax : Nat := 64

/-- The marker INVALID of `KEY_LEN.LEN` (10_state.md R28). -/
def keyLenInvalid : BitVec 7 := 127

/-- `ID`, the hard-wired identification word (00_scope.md R7, 10_state.md R24). -/
def idValue : Word := 0x484D4131

/-- The size of the register window in bytes (00_scope.md R7). -/
def windowBytes : Nat := 4096

/-- OPEN parameter `BASE` (00_scope.md R7), as the number of its 4096-byte page: every aligned base is one of these.
DESIGN CHOICE, log 3 (safe): the spec gives a platform address no width, so it is a natural number. -/
opaque basePage : Nat

/-- `BASE`, "4096-byte aligned" (00_scope.md R7, 20_memory.md R50). -/
def base : Nat := windowBytes * basePage

/-- OPEN parameter `RESET_ACCESS` (70_reset_and_hazards.md R232): whether the k-th access answered while reset is
held gets an error response. A free value (log 4, safe). -/
opaque resetAccessError : Nat → Bool

/-- OPEN parameter `RESET_ACCESS` (70_reset_and_hazards.md R232): the data of the k-th access answered while reset is
held, where it is a read. A free value (log 4, safe). -/
opaque resetAccessData : Nat → Word

end Sys2Proof.Config
end

