-- ==== Sys2Proof/Machine/State.lean ====
section
/-! DEFINITION. The state of one block: exactly the registers of 10_state.md R20, and beside them what the model needs of
the world around the block (the coming events, the responses given). Plain data throughout. -/

namespace Sys2Proof.Machine

/-- The five flags of `STATUS` (10_state.md R26, R33). Bits 31:5 are reserved and hold nothing. -/
structure Status where
  busy : Bool
  done : Bool
  errCmd : Bool
  errKeyLen : Bool
  errBusy : Bool
  deriving DecidableEq, Repr

/-- The two fields of `IRQ_EN` (10_state.md R27). Bits 31:2 are reserved and hold nothing. -/
structure IrqEn where
  doneIe : Bool
  errIe : Bool
  deriving DecidableEq, Repr

/-- The architectural state of one block, "exactly the following" of 10_state.md R20. -/
structure Block where
  /-- `STATUS` (10_state.md R26). -/
  status : Status
  /-- `IRQ_EN` (10_state.md R27). -/
  irqEn : IrqEn
  /-- `KEY_LEN.LEN` (10_state.md R28). -/
  keyLen : BitVec 7
  /-- `MSG_HI`, message bytes 0 to 3 (10_state.md R29). -/
  msgHi : Word
  /-- `MSG_LO`, message bytes 4 to 7 (10_state.md R29). -/
  msgLo : Word
  /-- `KEYW[0..15]` (10_state.md R30). -/
  keyw : Vector Word 16
  /-- `DIG[0..4]` (10_state.md R31). -/
  dig : Vector Word 5
  /-- `PENDING`, the hidden digest of an accepted HMAC command (10_state.md R40). -/
  pending : Option (Vector Word 5)
  deriving DecidableEq, Repr

/-- The registers an aligned window offset can select (10_state.md R23). -/
inductive Reg where
  | id
  | cmd
  | status
  | irqEn
  | keyLen
  | msgHi
  | msgLo
  | keyw (i : Fin 16)
  | dig (i : Fin 5)
  /-- An offset the map gives no register: RAZ/WI (10_state.md R32, 40_bus_access.md R117). -/
  | reserved
  deriving DecidableEq, Repr

/-- The four kinds of error the block reports (60_exceptions.md R200). -/
inductive ErrorCause where
  /-- Code 1: the bus error response, which has no status bit. -/
  | busError
  /-- Code 2: a reserved command word. -/
  | errCmd
  /-- Code 3: an HMAC command without a legal key length. -/
  | errKeyLen
  /-- Code 4: a locked write while busy. -/
  | errBusy
  deriving DecidableEq, Repr

/-- What the bus answers: OKAY, or the error response `BusError(off)` (60_exceptions.md R200, R201). -/
inductive BusStatus where
  | okay
  | busError (off : Offset)
  deriving DecidableEq, Repr

/-- A bus response: a read carries data, a write none (20_memory.md R55). -/
structure Response where
  status : BusStatus
  data : Option Word
  deriving DecidableEq, Repr

/-- One step of an agent (00_scope.md R10, 41_commands.md R140). -/
inductive Event where
  /-- A master's access by window offset. -/
  | bus (a : Access)
  /-- A master's access by platform address. -/
  | mem (a : PlatformAccess)
  /-- The engine's turn (41_commands.md R135). -/
  | engine
  /-- Reset (70_reset_and_hazards.md R230), with the accesses made while it is held (R232). -/
  | reset (held : List Access)
  deriving DecidableEq, Repr

/-- The state of the machine: the block, and three fields that are the MODEL'S OWN. -/
structure State extends Block where
  /-- What happens next, oldest first: the masters' accesses in bus order (20_memory.md R62), the engine's turns and
  resets. The list is arbitrary, so every interleaving and every LATENCY is some list (DESIGN CHOICE, log 1, safe). -/
  inputs : List Event
  /-- The responses given so far, newest first, each beside its access: the run's result of
  70_reset_and_hazards.md R246 (DESIGN CHOICE, log 5, safe). -/
  log : List (Access × Response)
  /-- How many accesses have been answered while reset was held: the argument of the free values RESET_ACCESS
  (DESIGN CHOICE, log 4, safe). -/
  resetAccesses : Nat
  deriving DecidableEq, Repr

/-- Why the machine stops with a fault. -/
inductive Fault where
  /-- Raised by the engine's completion where BUSY = 1 and PENDING = none, and by nothing else. No run reaches such a
  state (10_state.md R40), and the spec gives it no digest to publish. DESIGN CHOICE, log 6. Safe. -/
  | noPendingDigest
  deriving DecidableEq, Repr

/-- Why the machine refuses an instruction. -/
inductive Refusal where
  /-- An instruction of the opcode table without a meaning, raised by its arm of exec. No arm raises it: every row has
  its meaning. Safe. -/
  | notModelled (mnemonic : String)
  deriving DecidableEq, Repr

/-- Every register at its reset value (10_state.md R20, 70_reset_and_hazards.md R230). -/
def Block.reset : Block where
  status := ⟨false, false, false, false, false⟩
  irqEn := ⟨false, false⟩
  keyLen := Config.keyLenInvalid
  msgHi := 0
  msgLo := 0
  keyw := Vector.replicate 16 0
  dig := Vector.replicate 5 0
  pending := none

/-- The machine right after reset: the registers of `Block.reset`, no event to come and no response given
(DESIGN CHOICE for the model's own fields, logs 1, 4 and 5). -/
def State.reset : State where
  toBlock := Block.reset
  inputs := []
  log := []
  resetAccesses := 0

end Sys2Proof.Machine
end

