-- ==== Sys2Proof/Machine/Flags.lean ====
section
/-! DEFINITION. Every computation over the flags: `STATUS` and `IRQ_EN` as words, the W1C write, setting an error bit,
and the interrupt level. -/

namespace Sys2Proof.Machine

/-- The word a read of `STATUS` returns: `ERR_BUSY<<4 | ERR_KEYLEN<<3 | ERR_CMD<<2 | DONE<<1 | BUSY`, zero-extended
(40_bus_access.md R105). -/
def Status.toWord (s : Status) : Word :=
  0#27 ++ BitVec.ofBool s.errBusy ++ BitVec.ofBool s.errKeyLen ++ BitVec.ofBool s.errCmd ++ BitVec.ofBool s.done
    ++ BitVec.ofBool s.busy

/-- `StatusW1C(v)` of 40_bus_access.md R103: bits 1 to 4 written as 1 clear their flags; `BUSY` is read-only. -/
def Status.w1c (v : Word) (s : Status) : Status where
  busy := s.busy
  done := s.done && !v.getLsbD 1
  errCmd := s.errCmd && !v.getLsbD 2
  errKeyLen := s.errKeyLen && !v.getLsbD 3
  errBusy := s.errBusy && !v.getLsbD 4

/-- `set ERR_X` (00_scope.md R9): the bit of the cause becomes 1. The bus error response has no status bit
(60_exceptions.md R200). -/
def Status.setError : ErrorCause → Status → Status
  | .busError, s => s
  | .errCmd, s => { s with errCmd := true }
  | .errKeyLen, s => { s with errKeyLen := true }
  | .errBusy, s => { s with errBusy := true }

/-- The cause code of 60_exceptions.md R200; codes 2 to 4 are the `STATUS` bit positions. -/
def ErrorCause.code : ErrorCause → Nat
  | .busError => 1
  | .errCmd => 2
  | .errKeyLen => 3
  | .errBusy => 4

/-- Whether any of the three error bits is set (10_state.md R34). -/
def Status.anyError (s : Status) : Bool := s.errCmd || s.errKeyLen || s.errBusy

/-- The word a read of `IRQ_EN` returns: `ERR_IE<<1 | DONE_IE`, zero-extended (40_bus_access.md R106). -/
def IrqEn.toWord (e : IrqEn) : Word := 0#30 ++ BitVec.ofBool e.errIe ++ BitVec.ofBool e.doneIe

/-- What a write of v leaves in `IRQ_EN`: bits 1:0 kept, the rest ignored (40_bus_access.md R107, 30_encoding.md R78). -/
def IrqEn.ofWord (v : Word) : IrqEn where
  doneIe := v.getLsbD 0
  errIe := v.getLsbD 1

/-- The interrupt output, a level recomputed from state (10_state.md R34). -/
def Block.irq (b : Block) : Bool := (b.irqEn.doneIe && b.status.done) || (b.irqEn.errIe && b.status.anyError)

end Sys2Proof.Machine
end

