-- ==== Sys2Proof/Machine/Operands.lean ====
section
/-! DEFINITION. Operand forms: byte order, the assembly of key, message and digest, the value a `KEY_LEN` write stores,
and which register an offset selects. -/

namespace Sys2Proof.Machine

/-- `bytes(w)`: the four bytes of a word, most significant first (00_scope.md R9, 20_memory.md R58). -/
def bytesOf (w : Word) : List Byte :=
  [w.extractLsb' 24 8, w.extractLsb' 16 8, w.extractLsb' 8 8, w.extractLsb' 0 8]

/-- `word(b0, b1, b2, b3)`: the word of four bytes, most significant first (00_scope.md R9). -/
def wordOf (b0 b1 b2 b3 : Byte) : Word := b0 ++ b1 ++ b2 ++ b3

/-- A 64-bit value as 8 bytes, most significant first (42_sha1_hmac.md R154, 48_host_reference.md R185). -/
def bytesOf64 (x : BitVec 64) : List Byte := bytesOf (x.extractLsb' 32 32) ++ bytesOf (x.extractLsb' 0 32)

/-- The words of a byte string, four bytes each, big-endian (42_sha1_hmac.md R155). -/
def wordsOf : List Byte → List Word
  | b0 :: b1 :: b2 :: b3 :: rest => wordOf b0 b1 b2 b3 :: wordsOf rest
  | _ => []

/-- The 64-byte key buffer: byte 4i is in bits 31:24 of `KEYW[i]` (10_state.md R30, 30_encoding.md R75). -/
def Block.keyBuffer (b : Block) : List Byte := b.keyw.toList.flatMap bytesOf

/-- `KeyBytes(n)`: bytes 0 to n-1 of the key buffer; bytes at or beyond n take no part (30_encoding.md R75,
41_commands.md R134). -/
def Block.keyBytes (n : Nat) (b : Block) : List Byte := b.keyBuffer.take n

/-- The message M = bytes(MSG_HI) || bytes(MSG_LO) (30_encoding.md R76). -/
def Block.message (b : Block) : List Byte := bytesOf b.msgHi ++ bytesOf b.msgLo

/-- `WordsOf(D)`: the five digest words, `DIG[i] = word(D[4i], D[4i+1], D[4i+2], D[4i+3])` (30_encoding.md R77). -/
def digestWords (d : List Byte) : Vector Word 5 :=
  let w (i : Nat) : Word := wordOf (d.getD (4 * i) 0) (d.getD (4 * i + 1) 0) (d.getD (4 * i + 2) 0) (d.getD (4 * i + 3) 0)
  #v[w 0, w 1, w 2, w 3, w 4]

/-- What a write of v leaves in `KEY_LEN.LEN`: v itself up to 64, the marker INVALID for every larger v, whatever its
low bits (10_state.md R28, 40_bus_access.md R109). -/
def keyLenOfWord (v : Word) : BitVec 7 := if v.toNat ≤ Config.keyMax then v.setWidth 7 else Config.keyLenInvalid

/-- The register an aligned offset selects (10_state.md R23). -/
def regAt (off : Offset) : Reg :=
  let o := off.toNat
  if o = 0x000 then .id
  else if o = 0x004 then .cmd
  else if o = 0x008 then .status
  else if o = 0x00C then .irqEn
  else if o = 0x010 then .keyLen
  else if o = 0x018 then .msgHi
  else if o = 0x01C then .msgLo
  else if h : 0x040 ≤ o ∧ o ≤ 0x07F then .keyw ⟨(o - 0x040) / 4, by omega⟩
  else if h : 0x080 ≤ o ∧ o ≤ 0x093 then .dig ⟨(o - 0x080) / 4, by omega⟩
  else .reserved

/-- The offset of a register; a reserved one has none of its own, and 0x014 stands for all (10_state.md R23). -/
def Reg.offset : Reg → Offset
  | .id => 0x000
  | .cmd => 0x004
  | .status => 0x008
  | .irqEn => 0x00C
  | .keyLen => 0x010
  | .msgHi => 0x018
  | .msgLo => 0x01C
  | .keyw i => BitVec.ofNat 12 (0x040 + 4 * i.val)
  | .dig i => BitVec.ofNat 12 (0x080 + 4 * i.val)
  | .reserved => 0x014

/-- The registers whose writes are rejected while `BUSY` = 1 (40_bus_access.md R104). -/
def Reg.locked : Reg → Bool
  | .cmd => true
  | .keyLen => true
  | .msgHi => true
  | .msgLo => true
  | .keyw _ => true
  | .id => false
  | .status => false
  | .irqEn => false
  | .dig _ => false
  | .reserved => false

end Sys2Proof.Machine
end

