-- ==== Sys2Proof/Machine/Sha1.lean ====
section
/-! DEFINITION. SHA-1, rule by rule from 42_sha1_hmac.md R150 to R156, R161 and R162. -/

namespace Sys2Proof.Machine

/-- `ROTL_n(x)`, for 0 < n < 32 (42_sha1_hmac.md R150). -/
def rotl (n : Nat) (x : Word) : Word := x <<< n ||| x >>> (32 - n)

/-- The round function f_t (42_sha1_hmac.md R151). -/
def roundFunction (t : Nat) (x y z : Word) : Word :=
  if t ≤ 19 then (x &&& y) ^^^ (~~~x &&& z)
  else if t ≤ 39 then x ^^^ y ^^^ z
  else if t ≤ 59 then (x &&& y) ^^^ (x &&& z) ^^^ (y &&& z)
  else x ^^^ y ^^^ z

/-- The round constant K_t (42_sha1_hmac.md R152). -/
def roundConstant (t : Nat) : Word :=
  if t ≤ 19 then 0x5A827999
  else if t ≤ 39 then 0x6ED9EBA1
  else if t ≤ 59 then 0x8F1BBCDC
  else 0xCA62C1D6

/-- Five words: a chaining value (H0 .. H4), or the working variables (a .. e) of a block (42_sha1_hmac.md R161). -/
structure Chain where
  a : Word
  b : Word
  c : Word
  d : Word
  e : Word
  deriving DecidableEq, Repr

/-- The initial hash value (42_sha1_hmac.md R153). -/
def initialChain : Chain := ⟨0x67452301, 0xEFCDAB89, 0x98BADCFE, 0x10325476, 0xC3D2E1F0⟩

/-- Five words as 20 bytes, each word most significant byte first (42_sha1_hmac.md R162). -/
def Chain.bytes (h : Chain) : List Byte := bytesOf h.a ++ bytesOf h.b ++ bytesOf h.c ++ bytesOf h.d ++ bytesOf h.e

/-- The number k of zero bytes in the padding of a message of n bytes: the least k with (n + 1 + k) mod 64 = 56
(42_sha1_hmac.md R154). -/
def padZeros (n : Nat) : Nat := (119 - n % 64) % 64

/-- `Pad(m) = m || 0x80 || 0x00 * k || bytes8(8 |m|)` (42_sha1_hmac.md R154). The rule defines it for 8 |m| < 2^64 only; for
a longer message, which only a host's key could be, the length is taken modulo 2^64 (DESIGN CHOICE, log 18, unsafe). -/
def pad (m : List Byte) : List Byte :=
  m ++ [0x80#8] ++ List.replicate (padZeros m.length) 0#8 ++ bytesOf64 (BitVec.ofNat 64 (8 * m.length))

/-- The blocks of 64 bytes of a padded message (42_sha1_hmac.md R155). -/
def blocksOf (p : List Byte) : List (List Byte) :=
  (List.range (p.length / Config.blockBytes)).map fun i => (p.drop (Config.blockBytes * i)).take Config.blockBytes

/-- n further words of a schedule held newest first: W_t = ROTL_1(W_{t-3} ^ W_{t-8} ^ W_{t-14} ^ W_{t-16})
(42_sha1_hmac.md R156). -/
def extendSchedule : Nat → List Word → List Word
  | 0, w => w
  | n + 1, w => extendSchedule n (rotl 1 (w.getD 2 0 ^^^ w.getD 7 0 ^^^ w.getD 13 0 ^^^ w.getD 15 0) :: w)

/-- The message schedule W_0 .. W_79 of a block's 16 words (42_sha1_hmac.md R156). -/
def schedule (m : List Word) : List Word := (extendSchedule 64 m.reverse).reverse

/-- Round t, with schedule word w (42_sha1_hmac.md R161). -/
def sha1Round (t : Nat) (w : Word) (v : Chain) : Chain where
  a := rotl 5 v.a + roundFunction t v.b v.c v.d + v.e + roundConstant t + w
  b := v.a
  c := rotl 30 v.b
  d := v.c
  e := v.d

/-- The rounds from t on, one per schedule word (42_sha1_hmac.md R161). -/
def roundsFrom : Nat → List Word → Chain → Chain
  | _, [], v => v
  | t, w :: ws, v => roundsFrom (t + 1) ws (sha1Round t w v)

/-- `Compress(H, blk)` (42_sha1_hmac.md R161). -/
def compress (h : Chain) (blk : List Byte) : Chain :=
  let v := roundsFrom 0 (schedule (wordsOf blk)) h
  ⟨h.a + v.a, h.b + v.b, h.c + v.c, h.d + v.d, h.e + v.e⟩

/-- `SHA1(m)`, 20 bytes (42_sha1_hmac.md R162). -/
def sha1 (m : List Byte) : List Byte := ((blocksOf (pad m)).foldl compress initialChain).bytes

end Sys2Proof.Machine
end

