-- ==== Sys2Proof/Machine/Hmac.lean ====
section
/-! DEFINITION. HMAC-SHA1 for keys of at most 64 bytes, 42_sha1_hmac.md R158 to R160, and the digest the HMAC command
fixes at its acceptance (41_commands.md R132). -/

namespace Sys2Proof.Machine

/-- K0: the key followed by zero bytes to 64 (42_sha1_hmac.md R158). -/
def padKey (k : List Byte) : List Byte := k ++ List.replicate (Config.blockBytes - k.length) 0#8

/-- K0 ^ ipad, ipad = 0x36 repeated (42_sha1_hmac.md R159). -/
def innerKey (k : List Byte) : List Byte := (padKey k).map (· ^^^ 0x36#8)

/-- K0 ^ opad, opad = 0x5C repeated (42_sha1_hmac.md R159). -/
def outerKey (k : List Byte) : List Byte := (padKey k).map (· ^^^ 0x5C#8)

/-- `HMAC_SHA1(K, M)`, for |K| ≤ 64 (42_sha1_hmac.md R160). -/
def hmacSha1 (k m : List Byte) : List Byte := sha1 (outerKey k ++ sha1 (innerKey k ++ m))

/-- The digest words an HMAC command accepted in this state publishes: `WordsOf(HMAC_SHA1(K, M))` over the operands the
registers hold (41_commands.md R132). -/
def Block.hmacDigest (b : Block) : Vector Word 5 := digestWords (hmacSha1 (b.keyBytes b.keyLen.toNat) b.message)

end Sys2Proof.Machine
end

