-- ==== Sys2Proof/Machine/Ops.lean ====
section
/-! DEFINITION. The named operations over the registers that the meanings share: setting an error bit (what stands for
taking an exception on this block), the busy lock, the wipes, and recording a bus response. -/

namespace Sys2Proof.Machine

/-- An outcome followed by a change of the next state: a fault or a refusal stays as it is. -/
def onNext (f : State → State) : Host.Outcome State Fault Refusal → Host.Outcome State Fault Refusal
  | .next s => .next (f s)
  | .fault r => .fault r
  | .refused r => .refused r

/-- A rejection. The block has no trap entry: it saves nothing and moves nowhere, "An error changes one status bit"
(60_exceptions.md R202, R208). Nothing returns from it: the host clears the bit by W1C (R209). -/
def raiseError (c : ErrorCause) (s : State) : State := { s with status := s.status.setError c }

/-- The busy lock (40_bus_access.md R104): while `BUSY` = 1 the write sets ERR_BUSY and nothing else, otherwise it has
the effect t. -/
def unlessBusy (s t : State) : State := if s.status.busy then raiseError .errBusy s else t

/-- The wipe of the operands, shared by completion and ZEROIZE: the key words to 0, the key length to INVALID, the message
to 0 (41_commands.md R135, R137). -/
def wipeOperands (s : State) : State :=
  { s with keyw := Vector.replicate 16 0, keyLen := Config.keyLenInvalid, msgHi := 0, msgLo := 0 }

/-- `DIG[0..4] <- d` (41_commands.md R132, R135, R137). -/
def setDigest (d : Vector Word 5) (s : State) : State := { s with dig := d }

/-- `STATUS.BUSY <- busy; STATUS.DONE <- done`, the error bits unchanged (41_commands.md R132, R135, R137). -/
def setBusyDone (busy done : Bool) (s : State) : State :=
  { s with status := { s.status with busy := busy, done := done } }

/-- `PENDING <- p` (41_commands.md R132, R135). -/
def setPending (p : Option (Vector Word 5)) (s : State) : State := { s with pending := p }

/-- `AcceptHmac()` of 41_commands.md R132: the digest of the operands the registers hold is fixed now, and is all that the
later completion reads (10_state.md R40, R41; log 9). -/
def acceptHmac (s : State) : State :=
  setBusyDone true false (setDigest (Vector.replicate 5 0) (setPending (some s.hmacDigest) s))

/-- `Zeroize()` of 41_commands.md R137. `BUSY` stays as it is: 0 wherever it is performed. -/
def zeroize (s : State) : State :=
  setBusyDone s.status.busy true (setDigest (Vector.replicate 5 0) (wipeOperands s))

/-- `Complete()` of 41_commands.md R135, publishing the digest d that `PENDING` holds. -/
def completeWith (d : Vector Word 5) (s : State) : State :=
  setBusyDone false true (setPending none (wipeOperands (setDigest d s)))

/-- `Reset()` of 70_reset_and_hazards.md R230: every register at its reset value. The events still to come and the
responses already given lie outside the block and stay. -/
def resetRegisters (s : State) : State := { s with toBlock := Block.reset }

/-- Records the response to an access (70_reset_and_hazards.md R246). -/
def respond (a : Access) (r : Response) (s : State) : State := { s with log := (a, r) :: s.log }

end Sys2Proof.Machine
end

