-- ==== Sys2Proof/Machine/Commands.lean ====
section
/-! DEFINITION. The meaning of each command, 41_commands.md R130 to R132 and R137: the whole effect of the command's word
written to `CMD`, the check of `BUSY` included. -/

namespace Sys2Proof.Machine

/-- `NOP` (41_commands.md R131): nothing, `DONE` included; ERR_BUSY while `BUSY` = 1. -/
def execNop (s : State) : Host.Outcome State Fault Refusal := .next (unlessBusy s s)

/-- `HMAC` (41_commands.md R130, R132): ERR_BUSY while `BUSY` = 1, then ERR_KEYLEN where `KEY_LEN.LEN` > 64, otherwise
acceptance. -/
def execHmac (s : State) : Host.Outcome State Fault Refusal :=
  .next (unlessBusy s (if Config.keyMax < s.keyLen.toNat then raiseError .errKeyLen s else acceptHmac s))

/-- `ZEROIZE` (41_commands.md R130, R137): ERR_BUSY while `BUSY` = 1, otherwise the wipe of key, length, message and digest,
performed whole in this step. -/
def execZeroize (s : State) : Host.Outcome State Fault Refusal := .next (unlessBusy s (zeroize s))

end Sys2Proof.Machine
end

