-- ==== Sys2Proof/Machine/Dispatch.lean ====
section
/-! DEFINITION. exec: one arm per command of spec/opcode_table.json. -/

namespace Sys2Proof.Machine

/-- The effect of the command i, written to `CMD`, on the machine (41_commands.md R130). -/
def exec (i : Instr) (s : State) : Host.Outcome State Fault Refusal :=
  match i with
  | .nop => Sys2Proof.Machine.execNop s
  | .hmac => Sys2Proof.Machine.execHmac s
  | .zeroize => Sys2Proof.Machine.execZeroize s

end Sys2Proof.Machine
end

