-- ==== Sys2Proof/Machine/Bus.lean ====
section
/-! DEFINITION. Bus accesses: the read and the write of every register (40_bus_access.md R100 to R118), the check of width
and alignment (20_memory.md R55), and the decoding of a platform address (R52). -/

namespace Sys2Proof.Machine

/-- `RegRead` (40_bus_access.md R100). A read changes no state (20_memory.md R57), so it is a word, not a step. -/
def readReg (b : Block) : Reg → Word
  | .id => Config.idValue
  | .cmd => 0
  | .status => b.status.toWord
  | .irqEn => b.irqEn.toWord
  | .keyLen => b.keyLen.setWidth 32
  | .msgHi => b.msgHi
  | .msgLo => b.msgLo
  | .keyw _ => 0
  | .dig i => b.dig[i]
  | .reserved => 0

/-- `CommandWrite(v)` (41_commands.md R130): the checks in the rule's order, `BUSY` before any decoding of the value. -/
def commandWrite (v : Word) (s : State) : Host.Outcome State Fault Refusal :=
  if s.status.busy then .next (raiseError .errBusy s)
  else
    match decode v with
    | .reserved _ => .next (raiseError .errCmd s)
    | .instr i => exec i s

/-- `StatusW1C(v)` (40_bus_access.md R103), not locked by `BUSY`. -/
def writeStatus (v : Word) (s : State) : State := { s with status := s.status.w1c v }

/-- Write `IRQ_EN` (40_bus_access.md R107), not locked by `BUSY`. -/
def writeIrqEn (v : Word) (s : State) : State := { s with irqEn := IrqEn.ofWord v }

/-- `WriteKeyLen(v)` (40_bus_access.md R109). -/
def writeKeyLen (v : Word) (s : State) : State := unlessBusy s { s with keyLen := keyLenOfWord v }

/-- `WriteMsg(HI, v)` (40_bus_access.md R111). -/
def writeMsgHi (v : Word) (s : State) : State := unlessBusy s { s with msgHi := v }

/-- `WriteMsg(LO, v)` (40_bus_access.md R111). -/
def writeMsgLo (v : Word) (s : State) : State := unlessBusy s { s with msgLo := v }

/-- `WriteKeyWord(i, v)` (40_bus_access.md R113). -/
def writeKeyWord (i : Fin 16) (v : Word) (s : State) : State := unlessBusy s { s with keyw := s.keyw.set i v }

/-- `RegWrite` (40_bus_access.md R118). Writes to `ID`, `DIG` and reserved offsets are ignored (R115, R116, R117). -/
def writeReg (r : Reg) (v : Word) (s : State) : Host.Outcome State Fault Refusal :=
  match r with
  | .id => .next s
  | .cmd => commandWrite v s
  | .status => .next (writeStatus v s)
  | .irqEn => .next (writeIrqEn v s)
  | .keyLen => .next (writeKeyLen v s)
  | .msgHi => .next (writeMsgHi v s)
  | .msgLo => .next (writeMsgLo v s)
  | .keyw i => .next (writeKeyWord i v s)
  | .dig _ => .next s
  | .reserved => .next s

/-- The error response (20_memory.md R55, 60_exceptions.md R201): a read returns the data 0x00000000. -/
def busErrorResponse (a : Access) : Response where
  status := .busError a.off
  data := a.write.elim (some 0) fun _ => none

/-- `Access(off, n, isWrite, v)` (20_memory.md R55), with its response recorded. An error response changes no register
(60_exceptions.md R201) and is no stop of the machine (41_commands.md R140). -/
def busAccess (a : Access) (s : State) : Host.Outcome State Fault Refusal :=
  if a.wellFormed then
    match a.write with
    | none => .next (respond a ⟨.okay, some (readReg s.toBlock (regAt a.off))⟩ s)
    | some v => onNext (respond a ⟨.okay, none⟩) (writeReg (regAt a.off) v s)
  else .next (respond a (busErrorResponse a) s)

/-- The access the block sees of an access by platform address: one at `off = addr - BASE` where
`BASE <= addr <= BASE + 0xFFF`, that is 0 <= off <= 0xFFF, and none elsewhere (20_memory.md R52). -/
def decodeAddress (a : PlatformAccess) : Option Access :=
  if Config.base ≤ a.addr ∧ a.addr - Config.base < Config.windowBytes then
    some ⟨a.master, BitVec.ofNat 12 (a.addr - Config.base), a.bytes, a.write⟩
  else none

/-- An access by platform address (00_scope.md R9). Outside the window it does not reach the block, which neither changes
nor answers (20_memory.md R52; log 7). -/
def platformAccess (a : PlatformAccess) (s : State) : Host.Outcome State Fault Refusal :=
  match decodeAddress a with
  | some w => busAccess w s
  | none => .next s

end Sys2Proof.Machine
end

