-- ==== Sys2Proof/Machine/Events.lean ====
section
/-! DEFINITION. The steps of the three agents, 41_commands.md R140: a host access, the engine's completion, reset. -/

namespace Sys2Proof.Machine

/-- The engine's turn (41_commands.md R135, R140): completion where `BUSY` = 1; with `BUSY` = 0 "the engine has no step,
which is idle, not stuck". -/
def engineTurn (s : State) : Host.Outcome State Fault Refusal :=
  if s.status.busy then
    match s.pending with
    | some d => .next (completeWith d s)
    | none => .fault .noPendingDigest
  else .next s

/-- The response to an access made while reset is held: a free value, "any response" (70_reset_and_hazards.md R232;
log 4). -/
def heldResponse (k : Nat) (a : Access) : Response where
  status := if Config.resetAccessError k then .busError a.off else .okay
  data := a.write.elim (some (Config.resetAccessData k)) fun _ => none

/-- The accesses that overlap a reset, answered in bus order; none changes a register (70_reset_and_hazards.md R232). -/
def answerHeld : List Access → State → State
  | [], s => s
  | a :: rest, s =>
    answerHeld rest { respond a (heldResponse s.resetAccesses a) s with resetAccesses := s.resetAccesses + 1 }

/-- Reset, one atomic step (70_reset_and_hazards.md R230, R232). -/
def resetStep (held : List Access) (s : State) : State := answerHeld held (resetRegisters s)

/-- One event of the machine (41_commands.md R140). -/
def perform (e : Event) (s : State) : Host.Outcome State Fault Refusal :=
  match e with
  | .bus a => busAccess a s
  | .mem a => platformAccess a s
  | .engine => engineTurn s
  | .reset held => .next (resetStep held s)

/-- The write to `CMD` that carries the command word w, by master 0 (30_encoding.md R70, R80). -/
def commandEvent (w : Word) : Event := .bus ⟨0, Reg.offset .cmd, 4, some w⟩

end Sys2Proof.Machine
end

