-- ==== Sys2Proof/Machine/Step.lean ====
section
/-! DEFINITION. One step of the machine: the oldest event; where none is left, the engine, the only agent that can still
move (41_commands.md R136, R140). -/

namespace Sys2Proof.Machine

/-- The step relation of 41_commands.md R140 as a function of the state: the list of coming events says which agent moves
(DESIGN CHOICE, log 1). Where no event is left the engine has its turn, so that a completion is delayed finitely and never
forgotten (41_commands.md R136; DESIGN CHOICE, log 2). -/
def step (s : State) : Host.Outcome State Fault Refusal :=
  match s.inputs with
  | [] => engineTurn s
  | e :: rest => perform e { s with inputs := rest }

/-- s with the command word numbered as spec/opcode_table.json numbers it as its next event. The block fetches nothing
(20_memory.md R66): its "instruction" is the value of one bus write to `CMD` (10_state.md R22), so this write is what the
very next step performs (log 13). -/
def State.withFetchWord (s : State) (nbits w : Nat) : State :=
  { s with inputs := commandEvent (tableWord nbits w) :: s.inputs }

end Sys2Proof.Machine
end

