-- ==== Sys2Proof/Machine/HostReference.lean ====
section
/-! DEFINITION. The host's reference functions, 48_host_reference.md R180 to R189: "Nothing in this file is hardware of the
block". They are pure functions beside the machine; exec and step use none of them. -/

namespace Sys2Proof.Machine

/-- Why the host gives no code. The spec names one cause, `DecodeError`, and for the others says only that the host refuses
or fails; giving each a cause of its own is the model's (DESIGN CHOICE, log 16, safe). -/
inductive HostError where
  /-- `DecodeError` of the Base32 decoding (48_host_reference.md R182). -/
  | decodeError
  /-- A timestamp "refused by the host" (48_host_reference.md R184). How it is reported is open: DESIGN CHOICE, log 16. -/
  | badTimestamp
  /-- The `fail` of `BlockMac`, "rejected: host error, never a code" (48_host_reference.md R186). How it is reported is
  open: DESIGN CHOICE, log 16. -/
  | macFailed
  /-- The host program was abandoned at an error response, one action that BUS_ERROR_ACTION allows
  (60_exceptions.md R201). DESIGN CHOICE, logs 10 and 16. -/
  | busError
  deriving DecidableEq, Repr

/-- A timestamp: "a negative ts, a ts that is not a number, and a ts >= 30·2^64" are refused, so all three can be said;
a fractional one is an exact rational (48_host_reference.md R184; log 12). -/
inductive Timestamp where
  | notANumber
  | seconds (t : Rat)
  deriving DecidableEq, Repr

/-- The 5-bit value of a character of the Base32 alphabet (48_host_reference.md R181). -/
def base32Value (c : Char) : Option (BitVec 5) :=
  if 65 ≤ c.toNat ∧ c.toNat ≤ 90 then some (BitVec.ofNat 5 (c.toNat - 65))
  else if 50 ≤ c.toNat ∧ c.toNat ≤ 55 then some (BitVec.ofNat 5 (c.toNat - 50 + 26))
  else none

/-- The characters before the first `=`. -/
def base32Data (s : List Char) : List Char := s.takeWhile (· != '=')

/-- What follows them: the final run of `=` in a valid string. -/
def base32Padding (s : List Char) : List Char := s.dropWhile (· != '=')

/-- Whether `Base32Decode` succeeds: none of the four failures of 48_host_reference.md R182 holds. -/
def base32Valid (s : List Char) : Bool :=
  (base32Data s).all (fun c => (base32Value c).isSome)
    && (base32Padding s).all (· == '=')
    && s.length % 8 == 0
    && [0, 1, 3, 4, 6].contains (base32Padding s).length

/-- The bits of a 5-bit value, highest first. -/
def bitsOf5 (x : BitVec 5) : List Bool :=
  [x.getLsbD 4, x.getLsbD 3, x.getLsbD 2, x.getLsbD 1, x.getLsbD 0]

/-- The byte of eight bits, highest first. -/
def byteOfBits (b7 b6 b5 b4 b3 b2 b1 b0 : Bool) : Byte :=
  BitVec.ofBool b7 ++ BitVec.ofBool b6 ++ BitVec.ofBool b5 ++ BitVec.ofBool b4 ++ BitVec.ofBool b3 ++ BitVec.ofBool b2
    ++ BitVec.ofBool b1 ++ BitVec.ofBool b0

/-- The whole bytes of a bit string; fewer than 8 leftover bits are discarded (48_host_reference.md R183). -/
def bytesOfBits : List Bool → List Byte
  | b7 :: b6 :: b5 :: b4 :: b3 :: b2 :: b1 :: b0 :: rest => byteOfBits b7 b6 b5 b4 b3 b2 b1 b0 :: bytesOfBits rest
  | _ => []

/-- `Base32Decode(s)` (48_host_reference.md R182, R183). -/
def base32Decode (s : List Char) : Except HostError (List Byte) :=
  if base32Valid s then
    .ok (bytesOfBits ((base32Data s).flatMap fun c => bitsOf5 ((base32Value c).getD 0)))
  else .error .decodeError

/-- The time step in seconds (48_host_reference.md R184). -/
def timeStep : Nat := 30

/-- `Interval(ts)` = floor(ts / 30), an unsigned 64-bit counter, or the host's refusal (48_host_reference.md R184), which is
reported as `badTimestamp` (DESIGN CHOICE, log 16). -/
def interval : Timestamp → Except HostError (BitVec 64)
  | .notANumber => .error .badTimestamp
  | .seconds t =>
    if 0 ≤ t ∧ t < timeStep * 2 ^ 64 then .ok (BitVec.ofNat 64 (t / timeStep).floor.toNat)
    else .error .badTimestamp

/-- The key the host loads: a key of more than 64 bytes is replaced by its SHA-1 (42_sha1_hmac.md R157,
48_host_reference.md R186). The SHA-1 of a key of 2^64 bits or more is the model's choice (log 18). -/
def hostKey (k : List Byte) : List Byte := if Config.keyMax < k.length then sha1 k else k

/-- The value of `BlockMac(K, c)` where it does not fail: HMAC_SHA1 of the loaded key and bytes8(c) (48_host_reference.md R185, R186). -/
def blockMac (k : List Byte) (c : BitVec 64) : List Byte := hmacSha1 (hostKey k) (bytesOf64 c)

/-- The offset of `Truncate(D)`: the low 4 bits of the unsigned final byte (48_host_reference.md R187). -/
def truncateOffset (d : List Byte) : Nat := ((d.getD 19 0) &&& 0x0F#8).toNat

/-- `Truncate(D)`: four bytes from the offset on (48_host_reference.md R187). -/
def truncate (d : List Byte) : List Byte :=
  let off := truncateOffset d
  [d.getD off 0, d.getD (off + 1) 0, d.getD (off + 2) 0, d.getD (off + 3) 0]

/-- The code of `Fold(S)` as a number (48_host_reference.md R188). -/
def foldCode (s : List Byte) : Nat :=
  (wordOf (s.getD 0 0) (s.getD 1 0) (s.getD 2 0) (s.getD 3 0) &&& 0x7FFFFFFF#32).toNat % 1000000

/-- The number of digits of a code (48_host_reference.md R188). -/
def codeLen : Nat := 6

/-- A number in decimal, left-padded with '0' to the code length (48_host_reference.md R188). -/
def decimalPadded (n : Nat) : List Char :=
  List.replicate (codeLen - (Nat.toDigits 10 n).length) '0' ++ Nat.toDigits 10 n

/-- `Fold(S)` (48_host_reference.md R188). -/
def fold (s : List Byte) : List Char := decimalPadded (foldCode s)

/-- The stages of `generate_code(secret, ts_opt)` before the block: the key and the counter, or the first failure, at which
"the block is never started" (48_host_reference.md R180, R182). `now` is the clock, read once where no timestamp is given
(R184; log 12). -/
def hostOperands (secret : List Char) (ts : Option Timestamp) (now : Timestamp) :
    Except HostError (List Byte × BitVec 64) := do
  let k ← base32Decode secret
  let c ← interval (ts.getD now)
  return (k, c)

/-- The stages after the block: the code of a digest (48_host_reference.md R180). -/
def codeOf (d : List Byte) : List Char := fold (truncate d)

end Sys2Proof.Machine
end

