-- ==== Sys2Proof/Machine/Transactions.lean ====
section
/-! DEFINITION. The host's transactions (30_encoding.md R80) and pseudo-operations (R81) as lists of events: what a master
puts on the bus; none is an operation of the block. The lists of the two host sequences are their accesses where nothing
disturbs them, a `POLL` given with the number of its reads (log 12); the host's own programs, with their loops and their
failures, are in Machine/HostProgram.lean. -/

namespace Sys2Proof.Machine

/-- `WR <reg>, <value>` by master m (30_encoding.md R80). -/
def wr (m : Nat) (r : Reg) (v : Word) : Event := .bus ⟨m, r.offset, 4, some v⟩

/-- `RD <reg>` by master m (30_encoding.md R80). -/
def rd (m : Nat) (r : Reg) : Event := .bus ⟨m, r.offset, 4, none⟩

/-- The reads of a `POLL <reg>` that takes n of them (30_encoding.md R80). The loop itself is `HostOp.poll`. -/
def poll (m n : Nat) (r : Reg) : List Event := List.replicate n (rd m r)

/-- The command pseudo-operations `CMD.NOP`, `CMD.HMAC`, `CMD.ZEROIZE` (30_encoding.md R81). -/
def cmd (m : Nat) (i : Instr) : Event := wr m .cmd (encode i)

/-- The key words of `LOADKEY k` from word i on: four bytes a word, the bytes beyond |k| given as 0x00
(30_encoding.md R81). A key of at most 64 bytes has no word beyond 15. -/
def loadKeyWords (m : Nat) : Nat → List Byte → List Event
  | _, [] => []
  | i, [b0] => [wr m (.keyw (Fin.ofNat 16 i)) (wordOf b0 0 0 0)]
  | i, [b0, b1] => [wr m (.keyw (Fin.ofNat 16 i)) (wordOf b0 b1 0 0)]
  | i, [b0, b1, b2] => [wr m (.keyw (Fin.ofNat 16 i)) (wordOf b0 b1 b2 0)]
  | i, b0 :: b1 :: b2 :: b3 :: rest => wr m (.keyw (Fin.ofNat 16 i)) (wordOf b0 b1 b2 b3) :: loadKeyWords m (i + 1) rest

/-- `LOADKEY k`, for |k| ≤ 64 (30_encoding.md R81). -/
def loadKey (m : Nat) (k : List Byte) : List Event := loadKeyWords m 0 k ++ [wr m .keyLen (BitVec.ofNat 32 k.length)]

/-- `LOADMSG c` (30_encoding.md R81). -/
def loadMsg (m : Nat) (c : BitVec 64) : List Event :=
  [wr m .msgHi (c.extractLsb' 32 32), wr m .msgLo (c.extractLsb' 0 32)]

/-- `READDIG` (30_encoding.md R81). -/
def readDig (m : Nat) : List Event := [rd m (.dig 0), rd m (.dig 1), rd m (.dig 2), rd m (.dig 3), rd m (.dig 4)]

/-- `ACKDONE` (30_encoding.md R81). -/
def ackDone (m : Nat) : Event := wr m .status 0x00000002

/-- `BlockMac(K, c)` on the bus where it does not fail, for |K| ≤ 64 (48_host_reference.md R186): n0 reads of the first poll, then the load and
the command; n1 polls see the block busy before the engine's turn, n2 after it. -/
def blockMacEvents (m : Nat) (k : List Byte) (c : BitVec 64) (n0 n1 n2 : Nat) : List Event :=
  poll m n0 .status ++ loadKey m k ++ loadMsg m c ++ [wr m .status 0x0000001E, cmd m .hmac]
    ++ poll m n1 .status ++ [.engine] ++ poll m n2 .status
    ++ [rd m .status] ++ readDig m ++ [ackDone m, cmd m .zeroize]

/-- The wait for `irq` in place of polling (60_exceptions.md R207): enable, command, the engine's turn, the read of
`STATUS`, the digest, and the W1C write that drops `irq`. -/
def hmacByIrqEvents (m : Nat) : List Event :=
  [wr m .irqEn 0x00000001, cmd m .hmac, .engine, rd m .status] ++ readDig m ++ [wr m .status 0x0000001E]

/-- The check of the status read in 48_host_reference.md R186: `s[4:2] != 0 or s[1] = 0` is a failure. -/
def statusShowsDigest (s : Word) : Bool := s.extractLsb' 2 3 == 0 && s.getLsbD 1

end Sys2Proof.Machine
end

