-- ==== Sys2Proof/Machine/HostProgram.lean ====
section
/-! DEFINITION. Host programs beside the block: transactions that act on what their reads return (30_encoding.md R80), the
programs of 48_host_reference.md R180 and R186 and of 60_exceptions.md R207, and the system of one such program and the
block, run by a schedule. The block uses none of it. -/

namespace Sys2Proof.Machine

/-- One transaction of a host program (30_encoding.md R80), a register by its window offset. -/
inductive HostOp where
  /-- `WR <reg>, <value>`. -/
  | wr (off : Offset) (v : Word)
  /-- `RD <reg> -> <name>`: the value is kept. -/
  | rd (off : Offset)
  /-- `POLL <reg>, <mask>, <value>`: "repeat RD of reg until (read & mask) == value". -/
  | poll (off : Offset) (mask value : Word)
  /-- `RD STATUS -> s`, and `fail` where `s[4:2] != 0 or s[1] = 0` (48_host_reference.md R186). -/
  | check
  /-- `RD STATUS`, and the next n transactions left out where the same test fails (60_exceptions.md R207, step 4: "If
  DONE = 1 and no error bit is set, read DIG"). That the program goes on after them is the model's reading (DESIGN CHOICE,
log 16): the rule says only when `DIG` is read. -/
  | checkOrSkip (n : Nat)
  /-- "Wait for irq = 1" (60_exceptions.md R207, step 3): no access. -/
  | waitIrq
  deriving DecidableEq, Repr

/-- The access a transaction puts on the bus, for master m (30_encoding.md R80). -/
def HostOp.access (m : Nat) : HostOp → Option Access
  | .wr off v => some ⟨m, off, 4, some v⟩
  | .rd off => some ⟨m, off, 4, none⟩
  | .poll off _ _ => some ⟨m, off, 4, none⟩
  | .check => some ⟨m, Reg.offset .status, 4, none⟩
  | .checkOrSkip _ => some ⟨m, Reg.offset .status, 4, none⟩
  | .waitIrq => none

/-- The plain transactions of a list of accesses: each write a `WR`, each read an `RD`. -/
def transactionsOf (es : List Event) : List HostOp :=
  es.filterMap fun e =>
    match e with
    | .bus a => some (a.write.elim (.rd a.off) (.wr a.off))
    | .mem _ => none
    | .engine => none
    | .reset _ => none

/-- A host program under way. It is the model's own, no state of the block. -/
structure HostProcess where
  /-- The label of its accesses. -/
  master : Nat
  /-- The transactions still to make, the present one first. -/
  todo : List HostOp
  /-- The values its `RD` have returned, oldest first. -/
  words : List Word
  /-- Why it ended without a digest. -/
  failed : Option HostError
  /-- An error response has come that the host processor has not acted on (log 17). -/
  errorHeld : Bool
  deriving DecidableEq, Repr

/-- The program ends, and nothing of it is left to do: "never a code" (48_host_reference.md R186). -/
def HostProcess.fail (e : HostError) (h : HostProcess) : HostProcess := { h with todo := [], failed := some e }

/-- The present transaction has read x (0 where it was a write): what the program does next (30_encoding.md R80). -/
def HostProcess.receive (x : Word) (h : HostProcess) : HostProcess :=
  match h.todo with
  | [] => h
  | .wr _ _ :: rest => { h with todo := rest }
  | .rd _ :: rest => { h with todo := rest, words := h.words ++ [x] }
  | .poll _ mask value :: rest => if x &&& mask = value then { h with todo := rest } else h
  | .check :: rest => if statusShowsDigest x then { h with todo := rest } else h.fail .macFailed
  | .checkOrSkip n :: rest => { h with todo := if statusShowsDigest x then rest else rest.drop n }
  | .waitIrq :: _ => h

/-- The response to the present transaction. An error response is noted; what the host processor does with it is
BUS_ERROR_ACTION (60_exceptions.md R201; log 17). -/
def HostProcess.answered (r : Response) (h : HostProcess) : HostProcess :=
  { h.receive (r.data.getD 0) with errorHeld := h.errorHeld || r.status != .okay }

/-- The host looks at the level of `irq` (60_exceptions.md R207, step 3). -/
def HostProcess.observeIrq (irq : Bool) (h : HostProcess) : HostProcess :=
  match h.todo with
  | .waitIrq :: rest => if irq then { h with todo := rest } else h
  | _ => h

/-- The host processor acts on an error response by abandoning the program (60_exceptions.md R201; log 17). -/
def HostProcess.takeBusError (h : HostProcess) : HostProcess :=
  if h.errorHeld && h.failed.isNone then h.fail .busError else h

/-- The access the program is about to make. -/
def HostProcess.nextAccess (h : HostProcess) : Option Access := h.todo.head?.bind (HostOp.access h.master)

/-- How the program ended: the failure, or the bytes of the words it read, `bytes(d0) || .. || bytes(d4)` where those are
the digest words (30_encoding.md R81); none while it is under way. A program that left its reads out by
`checkOrSkip` and made the rest ends in `.ok []`, no bytes and no failure (DESIGN CHOICE, log 16). -/
def HostProcess.outcome (h : HostProcess) : Option (Except HostError (List Byte)) :=
  match h.failed with
  | some e => some (.error e)
  | none => if h.todo.isEmpty then some (.ok (h.words.flatMap bytesOf)) else none

/-- The code of the digest the program read, a failure of it surfaced: "must be surfaced, not swallowed"
(48_host_reference.md R180). -/
def HostProcess.code (h : HostProcess) : Option (Except HostError (List Char)) := h.outcome.map (Except.map codeOf)

/-- `POLL STATUS, 0x00000001, 0x00000000`, the `WAITDONE` of 30_encoding.md R81. -/
def waitDone : HostOp := .poll (Reg.offset .status) 0x00000001 0x00000000

/-- `BlockMac(K, c)`, for the key K the host loads (48_host_reference.md R186), line by line. -/
def blockMacProgram (k : List Byte) (c : BitVec 64) : List HostOp :=
  [waitDone]
    ++ transactionsOf (loadKey 0 k ++ loadMsg 0 c ++ [wr 0 .status 0x0000001E, cmd 0 .hmac])
    ++ [waitDone, .check]
    ++ transactionsOf (readDig 0 ++ [ackDone 0, cmd 0 .zeroize])

/-- The host about to run a program. -/
def HostProcess.start (m : Nat) (prog : List HostOp) : HostProcess := ⟨m, prog, [], none, false⟩

/-- The host about to run `BlockMac(K, c)`, a long key reduced first (48_host_reference.md R186). -/
def blockMacHost (m : Nat) (k : List Byte) (c : BitVec 64) : HostProcess :=
  HostProcess.start m (blockMacProgram (hostKey k) c)

/-- The host's use of `irq` in place of polling (60_exceptions.md R207), the operands loaded before. Where
step 4's test fails it reads no `DIG`, still makes the W1C write of step 5, and ends without a failure: the rule leaves
that open (DESIGN CHOICE, log 16). -/
def hmacByIrqProgram : List HostOp :=
  transactionsOf [wr 0 .irqEn 0x00000001, cmd 0 .hmac]
    ++ [.waitIrq, .checkOrSkip 5]
    ++ transactionsOf (readDig 0 ++ [wr 0 .status 0x0000001E])

/-- The host about to run `generate_code(secret, ts_opt)`: where a stage before the block fails it makes no access at all
(48_host_reference.md R180, R182, R184). -/
def codeHost (m : Nat) (secret : List Char) (ts : Option Timestamp) (now : Timestamp) : HostProcess :=
  match hostOperands secret ts now with
  | .ok (k, c) => blockMacHost m k c
  | .error e => (HostProcess.start m []).fail e

/-- One host program and one block. The block's own list of coming events plays no part: the schedule says what happens. -/
structure System where
  machine : State
  host : HostProcess
  deriving DecidableEq, Repr

/-- One entry of a schedule (41_commands.md R136; log 17). -/
inductive Turn where
  /-- The host makes its next access, or looks at `irq`. -/
  | host
  /-- The host makes its next access while reset is held (70_reset_and_hazards.md R232). -/
  | hostInReset
  /-- Anything else: the engine's turn, another master's access, a reset. -/
  | other (e : Event)
  /-- The host processor acts on an error response it has got (60_exceptions.md R201). -/
  | takeBusError
  deriving DecidableEq, Repr

/-- An outcome with its next state mapped: a fault or a refusal stays as it is. -/
def mapNext {α β : Type} (f : α → β) : Host.Outcome α Fault Refusal → Host.Outcome β Fault Refusal
  | .next s => .next (f s)
  | .fault r => .fault r
  | .refused r => .refused r

/-- The block performs an event; the host gets nothing of it. -/
def System.perform (e : Event) (σ : System) : Host.Outcome System Fault Refusal :=
  mapNext (fun t => { σ with machine := t }) (Sys2Proof.Machine.perform e σ.machine)

/-- The block performs the event that carries the host's access, and the host gets the response, the newest of the log. -/
def System.exchange (e : Event) (σ : System) : Host.Outcome System Fault Refusal :=
  mapNext (fun t => { machine := t, host := (t.log.head?.map Prod.snd).elim σ.host σ.host.answered })
    (Sys2Proof.Machine.perform e σ.machine)

/-- One turn of the system. -/
def System.turn (tn : Turn) (σ : System) : Host.Outcome System Fault Refusal :=
  match tn with
  | .host =>
    match σ.host.nextAccess with
    | some a => σ.exchange (.bus a)
    | none => .next { σ with host := σ.host.observeIrq σ.machine.irq }
  | .hostInReset =>
    match σ.host.nextAccess with
    | some a => σ.exchange (.reset [a])
    | none => σ.perform (.reset [])
  | .other e => σ.perform e
  | .takeBusError => .next { σ with host := σ.host.takeBusError }

/-- The turns of a schedule, stopping at the first fault or refusal. -/
def System.run : List Turn → System → Host.Outcome System Fault Refusal
  | [], σ => .next σ
  | tn :: rest, σ =>
    match σ.turn tn with
    | .next τ => τ.run rest
    | .fault r => .fault r
    | .refused r => .refused r

/-- The program has made its last access: no transaction left to it puts one on the bus. A wait for `irq` makes none, so one
left at the end does not count (70_reset_and_hazards.md R246). -/
def HostProcess.madeLastAccess (h : HostProcess) : Bool := h.todo.all fun op => (op.access h.master).isNone

/-- The run of the host program is over: it has made its last access and `BUSY` = 0 (70_reset_and_hazards.md R246). -/
def System.runOver (σ : System) : Bool := σ.host.madeLastAccess && !σ.machine.status.busy

/-- `generate_code(secret, ts_opt)` by master m on the block s under a schedule: the block it leaves, and the code or the
failure, none where the schedule ends before the program (48_host_reference.md R180). -/
def generateCode (secret : List Char) (ts : Option Timestamp) (now : Timestamp) (m : Nat) (turns : List Turn) (s : State) :
    Host.Outcome (State × Option (Except HostError (List Char))) Fault Refusal :=
  mapNext (fun σ => (σ.machine, σ.host.code)) (System.run turns ⟨s, codeHost m secret ts now⟩)

end Sys2Proof.Machine
end

