-- ==== Sys2Proof/Safety.lean ====
section
/-! DEFINITION. The terms of safety: the invariant of the states a run reaches, the error an access raises by priority, and
when a run of a host program is over. -/

namespace Sys2Proof.Machine

/-- s with e as its next event. Every state with an event to come is one of these. -/
def State.facing (s : State) (e : Event) : State := { s with inputs := e :: s.inputs }

/-- `RD` of an offset by master m (30_encoding.md R80). -/
abbrev readAccess (m : Nat) (off : Offset) : Access := ⟨m, off, 4, none⟩

/-- `WR` of v to an offset by master m (30_encoding.md R80). -/
abbrev writeAccess (m : Nat) (off : Offset) (v : Word) : Access := ⟨m, off, 4, some v⟩

/-- The access of the window an event carries to the block, by offset or by platform address (20_memory.md R52). -/
def Event.access : Event → Option Access
  | .bus a => some a
  | .mem a => decodeAddress a
  | .engine => none
  | .reset _ => none

/-- The event the step performs; where none is left the engine has its turn. -/
def State.nextEvent (s : State) : Event := s.inputs.headD .engine

/-- The response the newest entry of the log holds. -/
def State.lastResponse (s : State) : Option Response := s.log.head?.map Prod.snd

/-- What holds in every state a run reaches. -/
structure Inv (s : State) : Prop where
  /-- "PENDING is not none exactly when STATUS.BUSY = 1" (10_state.md R40). -/
  pending_iff_busy : s.pending.isSome = s.status.busy
  /-- "BUSY and DONE are never both 1" (40_bus_access.md R105). -/
  not_busy_and_done : ¬(s.status.busy = true ∧ s.status.done = true)
  /-- `LEN` is 0 to 64 or 127 (10_state.md R28). -/
  key_length_legal : s.keyLen.toNat ≤ 64 ∨ s.keyLen = 127
  /-- `DIG` reads 0 from acceptance until completion (10_state.md R31). -/
  digest_zero_while_busy : s.status.busy = true → s.dig = Vector.replicate 5 0
  /-- The running command was accepted with a legal length, which the lock keeps (41_commands.md R130,
  40_bus_access.md R104). -/
  key_length_while_busy : s.status.busy = true → s.keyLen.toNat ≤ 64
  /-- `PENDING` is the digest of the operands the registers hold, "because no input of the computation can change while
  BUSY = 1" (10_state.md R40). -/
  pending_is_digest : ∀ d, s.pending = some d → d = s.hmacDigest

/-- The one error an access raises, by the priority of 60_exceptions.md R204. -/
def accessError (a : Access) (b : Block) : Option ErrorCause :=
  if a.bytes ≠ 4 ∨ a.off.extractLsb' 0 2 ≠ 0#2 then some .busError
  else
    match a.write with
    | none => none
    | some v =>
      if b.status.busy ∧ (regAt a.off).locked then some .errBusy
      else if regAt a.off = .cmd ∧ (decode v).isReserved then some .errCmd
      else if regAt a.off = .cmd ∧ decode v = .instr .hmac ∧ 64 < b.keyLen.toNat then some .errKeyLen
      else none

/-- The accesses of the window an event still has to make, those that overlap a reset included. -/
def Event.accesses : Event → List Access
  | .bus a => [a]
  | .mem a => (decodeAddress a).toList
  | .engine => []
  | .reset held => held

/-- Master m has no access left to make (70_reset_and_hazards.md R246: "the host program has made its last access"). What
else is left, another master's access, an engine's turn or a reset, does not count. -/
def State.madeLastAccess (m : Nat) (s : State) : Bool :=
  s.inputs.all fun e => e.accesses.all fun a => a.master != m

/-- The run of the host program of master m is over: its last access is made and `BUSY` = 0
(70_reset_and_hazards.md R246). The host program is known by its master label (DESIGN CHOICE, log 15). -/
def State.runOver (m : Nat) (s : State) : Bool := s.madeLastAccess m && !s.status.busy

/-- The result of a run (70_reset_and_hazards.md R246), oldest first; nothing of time, of `irq` or of another master is in
it. -/
structure RunResult where
  /-- "the sequence of values its reads returned" -/
  reads : List Word
  /-- "the state of `10_state.md` rule R20 at the end" -/
  block : Block
  /-- "the bus responses (OKAY or `BusError`) of each access" -/
  responses : List BusStatus
  deriving DecidableEq, Repr

/-- The result of the run of the host program of master m, read from the log (70_reset_and_hazards.md R246; logs 5, 15). -/
def State.runResult (m : Nat) (s : State) : RunResult :=
  let mine := (s.log.filter fun p => p.1.master == m).reverse
  { reads := mine.filterMap fun p => p.2.data, block := s.toBlock, responses := mine.map fun p => p.2.status }

end Sys2Proof.Machine
end

