-- ==== Sys2Proof/Certificates/Slice0/Obligations.lean ====
section
/-! DEFINITION. What is claimed of the block, from the numbered rules of spec/. Each is a statement; the proofs are others'.
A host access is an event (`State.facing`); "the step answers t" is `step … = .next t`. -/

open Sys2Proof Sys2Proof.Machine

/-! ## Reset -/

/-- 70_reset_and_hazards.md R230: from every state, with any accesses overlapping it. -/
def Obligations.ResetRestoresEveryRegister : Prop :=
  ∀ (s : State) (held : List Access), ∃ t, step (s.facing (.reset held)) = .next t
    ∧ t.status.busy = false ∧ t.status.done = false
    ∧ t.status.errCmd = false ∧ t.status.errKeyLen = false ∧ t.status.errBusy = false
    ∧ t.irqEn.doneIe = false ∧ t.irqEn.errIe = false
    ∧ t.keyLen = 127 ∧ t.msgHi = 0 ∧ t.msgLo = 0
    ∧ (∀ i : Fin 16, t.keyw[i] = 0) ∧ (∀ i : Fin 5, t.dig[i] = 0)
    ∧ t.pending = none ∧ t.irq = false
    ∧ readReg t.toBlock .id = 0x484D4131
    ∧ t.inputs = s.inputs

/-- The invariant of `StepKeepsInvariant` holds right after reset. -/
def Obligations.ResetStateMeetsInvariant : Prop := Inv State.reset

/-- 70_reset_and_hazards.md R232: each access overlapping a reset is answered once, in order, with data exactly where it
is a read, and changes no register. Which answer it is, is a free value (log 4). -/
def Obligations.HeldAccessesAreOnlyAnswered : Prop :=
  ∀ (s : State) (held : List Access), ∃ t, step (s.facing (.reset held)) = .next t
    ∧ t.toBlock = Block.reset
    ∧ t.log.map Prod.fst = held.reverse ++ s.log.map Prod.fst
    ∧ t.log.drop held.length = s.log
    ∧ (∀ p ∈ t.log.take held.length, p.2.data.isSome = p.1.write.isNone)

/-! ## Encoding -/

/-- 30_encoding.md R71, R72: one word for each command, and every one of the other words is reserved. -/
def Obligations.DecodeInvertsEncodeAndReservesTheRest : Prop :=
  encode .nop = 0x00000000 ∧ encode .hmac = 0x00000001 ∧ encode .zeroize = 0x00000002
    ∧ (∀ (w : Word) (i : Instr), decode w = .instr i ↔ w = encode i)
    ∧ (∀ w : Word, (decode w).isReserved = true ↔ 3 ≤ w.toNat)

/-- Words written out from 30_encoding.md R70 to R73 and from the rows B2 to B5 of 95_test_vectors.md. -/
def Obligations.WrittenOutWordsDecode : Prop :=
  decode 0b00000000000000000000000000000000 = .instr .nop
    ∧ decode 0b00000000000000000000000000000001 = .instr .hmac
    ∧ decode 0b00000000000000000000000000000010 = .instr .zeroize
    ∧ decode 0x00000003 = .reserved .reservedOp ∧ decode 0x0000000F = .reserved .reservedOp
    ∧ decode 0x00000011 = .reserved .reservedBits ∧ decode 0x80000000 = .reserved .reservedBits

/-! ## Commands -/

/-- 41_commands.md R131. -/
def Obligations.NopChangesNothingUnlessBusy : Prop :=
  ∀ s : State,
    (s.status.busy = false → exec .nop s = .next s)
    ∧ (s.status.busy = true → exec .nop s = .next { s with status := { s.status with errBusy := true } })

/-- 41_commands.md R132, with what acceptance leaves unchanged, and its exceptions: a rejected HMAC command sets one error
bit and nothing else. -/
def Obligations.HmacFixesTheDigestOrSetsOneErrorBit : Prop :=
  ∀ s : State,
    (s.status.busy = false → s.keyLen.toNat ≤ 64 → ∃ t, exec .hmac s = .next t
      ∧ t.pending = some (digestWords (hmacSha1 (s.keyBytes s.keyLen.toNat) (bytesOf s.msgHi ++ bytesOf s.msgLo)))
      ∧ (∀ i : Fin 5, t.dig[i] = 0)
      ∧ t.status.busy = true ∧ t.status.done = false
      ∧ t.status.errCmd = s.status.errCmd ∧ t.status.errKeyLen = s.status.errKeyLen
      ∧ t.status.errBusy = s.status.errBusy
      ∧ t.irqEn = s.irqEn ∧ t.keyLen = s.keyLen ∧ t.msgHi = s.msgHi ∧ t.msgLo = s.msgLo ∧ t.keyw = s.keyw
      ∧ t.inputs = s.inputs ∧ t.log = s.log ∧ t.resetAccesses = s.resetAccesses)
    ∧ (s.status.busy = true → exec .hmac s = .next { s with status := { s.status with errBusy := true } })
    ∧ (s.status.busy = false → 64 < s.keyLen.toNat →
        exec .hmac s = .next { s with status := { s.status with errKeyLen := true } })

/-- 41_commands.md R137, with what it leaves unchanged, and its corner case: "Two ZEROIZE writes in a row leave the same
state as one." -/
def Obligations.ZeroizeWipesUnlessBusy : Prop :=
  ∀ s : State,
    (s.status.busy = true → exec .zeroize s = .next { s with status := { s.status with errBusy := true } })
    ∧ (s.status.busy = false → ∃ t, exec .zeroize s = .next t
      ∧ (∀ i : Fin 16, t.keyw[i] = 0) ∧ t.keyLen = 127 ∧ t.msgHi = 0 ∧ t.msgLo = 0 ∧ (∀ i : Fin 5, t.dig[i] = 0)
      ∧ t.status.done = true ∧ t.status.busy = false
      ∧ t.status.errCmd = s.status.errCmd ∧ t.status.errKeyLen = s.status.errKeyLen
      ∧ t.status.errBusy = s.status.errBusy
      ∧ t.irqEn = s.irqEn ∧ t.pending = s.pending
      ∧ t.inputs = s.inputs ∧ t.log = s.log ∧ t.resetAccesses = s.resetAccesses)
    ∧ (∃ t, exec .zeroize s = .next t ∧ exec .zeroize t = .next t)

/-- 41_commands.md R133: two states that agree on the key length, the key bytes below it and the message, and on nothing
else, fix the same digest. -/
def Obligations.DigestDependsOnOperandsOnly : Prop :=
  ∀ s u : State, s.status.busy = false → u.status.busy = false →
    s.keyLen.toNat ≤ 64 → u.keyLen = s.keyLen →
    (∀ j, j < s.keyLen.toNat → s.keyBuffer[j]? = u.keyBuffer[j]?) →
    u.msgHi = s.msgHi → u.msgLo = s.msgLo →
    ∃ t v, exec .hmac s = .next t ∧ exec .hmac u = .next v ∧ t.pending.isSome = true ∧ t.pending = v.pending

/-- 41_commands.md R130, a write to `CMD` on the bus: the checks in the rule's order, and OKAY in every case. -/
def Obligations.CommandWriteChecksInOrder : Prop :=
  ∀ (s : State) (m : Nat) (v : Word), ∃ t, step (s.facing (.bus (writeAccess m 0x004 v))) = .next t
    ∧ t.log = (writeAccess m 0x004 v, ⟨.okay, none⟩) :: s.log ∧ t.inputs = s.inputs
    ∧ (s.status.busy = true → t.toBlock = { s.toBlock with status := { s.status with errBusy := true } })
    ∧ (s.status.busy = false → 3 ≤ v.toNat →
        t.toBlock = { s.toBlock with status := { s.status with errCmd := true } })
    ∧ (s.status.busy = false → v = 0 → t.toBlock = s.toBlock)
    ∧ (s.status.busy = false → v = 2 → t.toBlock = (zeroize s).toBlock)
    ∧ (s.status.busy = false → v = 1 → 64 < s.keyLen.toNat →
        t.toBlock = { s.toBlock with status := { s.status with errKeyLen := true } })
    ∧ (s.status.busy = false → v = 1 → s.keyLen.toNat ≤ 64 → t.toBlock = (acceptHmac s).toBlock)

/-- A write to `CMD` of a word that decodes to a command is that command's exec, with the OKAY response recorded. -/
def Obligations.StepRunsTheDecodedCommand : Prop :=
  ∀ (s : State) (m : Nat) (w : Word) (i : Instr), decode w = .instr i →
    step (s.facing (.bus (writeAccess m 0x004 w)))
      = onNext (respond (writeAccess m 0x004 w) ⟨.okay, none⟩) (exec i s)

/-! ## SHA-1 and HMAC -/

/-- 42_sha1_hmac.md R151, R152, R153. -/
def Obligations.RoundFunctionsAndConstants : Prop :=
  initialChain = ⟨0x67452301, 0xEFCDAB89, 0x98BADCFE, 0x10325476, 0xC3D2E1F0⟩
  ∧ ∀ (t : Nat) (x y z : Word),
    (t ≤ 19 → roundFunction t x y z = (x &&& y) ^^^ (~~~x &&& z) ∧ roundConstant t = 0x5A827999)
    ∧ (20 ≤ t → t ≤ 39 → roundFunction t x y z = x ^^^ y ^^^ z ∧ roundConstant t = 0x6ED9EBA1)
    ∧ (40 ≤ t → t ≤ 59 →
        roundFunction t x y z = (x &&& y) ^^^ (x &&& z) ^^^ (y &&& z) ∧ roundConstant t = 0x8F1BBCDC)
    ∧ (60 ≤ t → t ≤ 79 → roundFunction t x y z = x ^^^ y ^^^ z ∧ roundConstant t = 0xCA62C1D6)

/-- 42_sha1_hmac.md R154, with k the least number of zero bytes. -/
def Obligations.PaddingFillsWholeBlocks : Prop :=
  ∀ m : List Byte, 8 * m.length < 2 ^ 64 → ∃ k : Nat,
    pad m = m ++ [0x80#8] ++ List.replicate k 0#8 ++ bytesOf64 (BitVec.ofNat 64 (8 * m.length))
    ∧ (m.length + 1 + k) % 64 = 56 ∧ (∀ j, j < k → (m.length + 1 + j) % 64 ≠ 56)
    ∧ (pad m).length % 64 = 0

/-- 42_sha1_hmac.md R155, R162: a padded message that is a row of 64-byte blocks is hashed block by block, in order, and
each block is 16 big-endian words. It is said of `Pad(m)` whatever it is, so it
rests on nothing chosen for a message of 2^64 bits or more (log 18). -/
def Obligations.Sha1FoldsTheBlocksOfThePaddedMessage : Prop :=
  (∀ (m : List Byte) (blks : List (List Byte)), pad m = blks.flatten → (∀ b ∈ blks, b.length = 64) →
      blocksOf (pad m) = blks ∧ sha1 m = (blks.foldl compress initialChain).bytes ∧ (sha1 m).length = 20)
    ∧ (∀ blk : List Byte, blk.length = 64 → (wordsOf blk).length = 16
      ∧ ∀ t, t < 16 → (wordsOf blk)[t]?
        = some (wordOf (blk.getD (4 * t) 0) (blk.getD (4 * t + 1) 0) (blk.getD (4 * t + 2) 0) (blk.getD (4 * t + 3) 0)))

/-- 42_sha1_hmac.md R156. -/
def Obligations.ScheduleFollowsItsRecurrence : Prop :=
  ∀ m : List Word, m.length = 16 →
    (schedule m).length = 80
    ∧ (∀ t, t < 16 → (schedule m)[t]? = m[t]?)
    ∧ (∀ t, 16 ≤ t → t < 80 →
        (schedule m).getD t 0 = rotl 1 ((schedule m).getD (t - 3) 0 ^^^ (schedule m).getD (t - 8) 0
          ^^^ (schedule m).getD (t - 14) 0 ^^^ (schedule m).getD (t - 16) 0))

/-- 42_sha1_hmac.md R161: the working variables v 0, v 1, .. of the eighty rounds, and the final addition. -/
def Obligations.CompressRunsEightyRounds : Prop :=
  ∀ (h : Chain) (blk : List Byte), blk.length = 64 → ∃ v : Nat → Chain,
    v 0 = h
    ∧ (∀ t, t < 80 →
        (v (t + 1)).a = rotl 5 (v t).a + roundFunction t (v t).b (v t).c (v t).d + (v t).e + roundConstant t
            + (schedule (wordsOf blk)).getD t 0
        ∧ (v (t + 1)).e = (v t).d ∧ (v (t + 1)).d = (v t).c ∧ (v (t + 1)).c = rotl 30 (v t).b
        ∧ (v (t + 1)).b = (v t).a)
    ∧ compress h blk
        = ⟨h.a + (v 80).a, h.b + (v 80).b, h.c + (v 80).c, h.d + (v 80).d, h.e + (v 80).e⟩

/-- 42_sha1_hmac.md R163: the four compressions of one HMAC command and the bytes of their blocks. -/
def Obligations.HmacIsFourCompressions : Prop :=
  ∀ k m : List Byte, k.length ≤ 64 → m.length = 8 →
    let k0 := k ++ List.replicate (64 - k.length) 0#8
    let hi1 := compress initialChain (k0.map (· ^^^ 0x36#8))
    let hi2 := compress hi1 (m ++ [0x80#8] ++ List.replicate 47 0#8 ++ [0, 0, 0, 0, 0, 0, 0x02#8, 0x40#8])
    let ho1 := compress initialChain (k0.map (· ^^^ 0x5C#8))
    let ho2 := compress ho1 (hi2.bytes ++ [0x80#8] ++ List.replicate 35 0#8 ++ [0, 0, 0, 0, 0, 0, 0x02#8, 0xA0#8])
    hmacSha1 k m = ho2.bytes

/-- 41_commands.md R134, its consequence: zero bytes appended to a key change no digest. -/
def Obligations.ZeroBytesAppendedToKeyChangeNothing : Prop :=
  ∀ (k m : List Byte) (z : Nat), k.length + z ≤ 64 → hmacSha1 (k ++ List.replicate z 0#8) m = hmacSha1 k m

/-! ## Operands -/

/-- 42_sha1_hmac.md R150 and 00_scope.md R9: bytes and words are each other's inverse, most significant byte first, and
ROTL is the rotation. -/
def Obligations.WordsAreBigEndianAndRotl : Prop :=
  (∀ b0 b1 b2 b3 : Byte,
      (wordOf b0 b1 b2 b3).toNat = b0.toNat * 2 ^ 24 + b1.toNat * 2 ^ 16 + b2.toNat * 2 ^ 8 + b3.toNat
      ∧ bytesOf (wordOf b0 b1 b2 b3) = [b0, b1, b2, b3])
    ∧ (∀ (n : Nat) (x : Word), 0 < n → n < 32 → rotl n x = x.rotateLeft n)

/-- 30_encoding.md R75: the key buffer's byte j, and the key as its first n bytes. -/
def Obligations.KeyBytesAreBigEndianBytesOfKeyWords : Prop :=
  ∀ b : Block,
    b.keyBuffer.length = 64
    ∧ (∀ j, j < 64 → b.keyBuffer[j]? = (bytesOf (b.keyw.toList.getD (j / 4) 0))[j % 4]?)
    ∧ (∀ n, n ≤ 64 → (b.keyBytes n).length = n ∧ ∀ j, j < n → (b.keyBytes n)[j]? = b.keyBuffer[j]?)

/-- 30_encoding.md R76: the 8 message bytes, and M as a 64-bit big-endian integer. -/
def Obligations.MessageIsBigEndianHiLo : Prop :=
  ∀ b : Block,
    b.message = [b.msgHi.extractLsb' 24 8, b.msgHi.extractLsb' 16 8, b.msgHi.extractLsb' 8 8, b.msgHi.extractLsb' 0 8,
        b.msgLo.extractLsb' 24 8, b.msgLo.extractLsb' 16 8, b.msgLo.extractLsb' 8 8, b.msgLo.extractLsb' 0 8]
    ∧ b.message = bytesOf64 (b.msgHi ++ b.msgLo)

/-- 30_encoding.md R77, read from the digest word back to its four bytes. -/
def Obligations.DigestWordsHoldTheDigestBytes : Prop :=
  ∀ d : List Byte, d.length = 20 → ∀ i : Fin 5, bytesOf (digestWords d)[i] = (d.drop (4 * i.val)).take 4

/-! ## Register reads -/

/-- 40_bus_access.md R100: what a read of each aligned offset answers; no read changes a register (20_memory.md R57). -/
def Obligations.ReadsAnswerTheRegisterMap : Prop :=
  ∀ (s : State) (m : Nat) (off : Offset), off.toNat % 4 = 0 → ∃ (t : State) (x : Word),
    step (s.facing (.bus (readAccess m off))) = .next t
    ∧ t = { s with log := (readAccess m off, ⟨.okay, some x⟩) :: s.log }
    ∧ (off = 0x000 → x = 0x484D4131)
    ∧ (off = 0x004 → x = 0)
    ∧ (off = 0x008 → x = s.status.toWord)
    ∧ (off = 0x00C → x = s.irqEn.toWord)
    ∧ (off = 0x010 → x.toNat = s.keyLen.toNat)
    ∧ (off = 0x018 → x = s.msgHi)
    ∧ (off = 0x01C → x = s.msgLo)
    ∧ (0x040 ≤ off.toNat → off.toNat ≤ 0x07C → x = 0)
    ∧ (∀ i : Fin 5, off.toNat = 0x080 + 4 * i.val → x = s.dig[i])
    ∧ (off = 0x014 ∨ (0x020 ≤ off.toNat ∧ off.toNat ≤ 0x03C) ∨ 0x094 ≤ off.toNat → x = 0)

/-- 40_bus_access.md R105, R106: the bits of the words `STATUS` and `IRQ_EN` read as. -/
def Obligations.FlagWordsHoldTheFlagsBitByBit : Prop :=
  ∀ (f : Status) (e : IrqEn),
    f.toWord.getLsbD 0 = f.busy ∧ f.toWord.getLsbD 1 = f.done ∧ f.toWord.getLsbD 2 = f.errCmd
    ∧ f.toWord.getLsbD 3 = f.errKeyLen ∧ f.toWord.getLsbD 4 = f.errBusy
    ∧ (∀ i, 5 ≤ i → f.toWord.getLsbD i = false)
    ∧ e.toWord.getLsbD 0 = e.doneIe ∧ e.toWord.getLsbD 1 = e.errIe
    ∧ (∀ i, 2 ≤ i → e.toWord.getLsbD i = false)

/-! ## Register writes -/

/-- 40_bus_access.md R103, at any time: bits 1 to 4 written as 1 clear their flags and nothing else changes. -/
def Obligations.StatusWriteClearsExactlyTheOnes : Prop :=
  ∀ (s : State) (m : Nat) (v : Word), ∃ t, step (s.facing (.bus (writeAccess m 0x008 v))) = .next t
    ∧ t.log = (writeAccess m 0x008 v, ⟨.okay, none⟩) :: s.log ∧ t.inputs = s.inputs
    ∧ t.toBlock = { s.toBlock with status := t.status }
    ∧ t.status.busy = s.status.busy
    ∧ (t.status.done = true ↔ s.status.done = true ∧ v.getLsbD 1 = false)
    ∧ (t.status.errCmd = true ↔ s.status.errCmd = true ∧ v.getLsbD 2 = false)
    ∧ (t.status.errKeyLen = true ↔ s.status.errKeyLen = true ∧ v.getLsbD 3 = false)
    ∧ (t.status.errBusy = true ↔ s.status.errBusy = true ∧ v.getLsbD 4 = false)

/-- 40_bus_access.md R107, at any time. -/
def Obligations.IrqEnWriteKeepsTheTwoLowBits : Prop :=
  ∀ (s : State) (m : Nat) (v : Word), ∃ t, step (s.facing (.bus (writeAccess m 0x00C v))) = .next t
    ∧ t.log = (writeAccess m 0x00C v, ⟨.okay, none⟩) :: s.log ∧ t.inputs = s.inputs
    ∧ t.toBlock = { s.toBlock with irqEn := ⟨v.getLsbD 0, v.getLsbD 1⟩ }
    ∧ (v.getLsbD 0 = true → s.status.done = true → t.irq = true)

/-- 40_bus_access.md R109: a length of at most 64 is stored, every larger value stores INVALID. -/
def Obligations.KeyLenWriteStoresALegalLength : Prop :=
  ∀ (s : State) (m : Nat) (v : Word), ∃ t, step (s.facing (.bus (writeAccess m 0x010 v))) = .next t
    ∧ t.log = (writeAccess m 0x010 v, ⟨.okay, none⟩) :: s.log ∧ t.inputs = s.inputs
    ∧ (s.status.busy = true → t.toBlock = { s.toBlock with status := { s.status with errBusy := true } })
    ∧ (s.status.busy = false → t.toBlock = { s.toBlock with keyLen := t.keyLen })
    ∧ (s.status.busy = false → v.toNat ≤ 64 → t.keyLen.toNat = v.toNat)
    ∧ (s.status.busy = false → 64 < v.toNat → t.keyLen = 127)

/-- 40_bus_access.md R111. -/
def Obligations.MessageWriteStoresTheWord : Prop :=
  ∀ (s : State) (m : Nat) (v : Word), ∃ t u,
    step (s.facing (.bus (writeAccess m 0x018 v))) = .next t ∧ step (s.facing (.bus (writeAccess m 0x01C v))) = .next u
    ∧ t.log = (writeAccess m 0x018 v, ⟨.okay, none⟩) :: s.log ∧ t.inputs = s.inputs
    ∧ u.log = (writeAccess m 0x01C v, ⟨.okay, none⟩) :: s.log ∧ u.inputs = s.inputs
    ∧ (s.status.busy = true → t.toBlock = { s.toBlock with status := { s.status with errBusy := true } }
        ∧ u.toBlock = { s.toBlock with status := { s.status with errBusy := true } })
    ∧ (s.status.busy = false → t.toBlock = { s.toBlock with msgHi := v } ∧ u.toBlock = { s.toBlock with msgLo := v })

/-- 40_bus_access.md R113: key word i and no other. -/
def Obligations.KeyWordWriteStoresOneWord : Prop :=
  ∀ (s : State) (m : Nat) (v : Word) (i : Fin 16), ∃ t,
    step (s.facing (.bus (writeAccess m (BitVec.ofNat 12 (0x040 + 4 * i.val)) v))) = .next t
    ∧ t.log = (writeAccess m (BitVec.ofNat 12 (0x040 + 4 * i.val)) v, ⟨.okay, none⟩) :: s.log ∧ t.inputs = s.inputs
    ∧ (s.status.busy = true → t.toBlock = { s.toBlock with status := { s.status with errBusy := true } })
    ∧ (s.status.busy = false → t.toBlock = { s.toBlock with keyw := t.keyw }
        ∧ t.keyw[i] = v ∧ ∀ j : Fin 16, j ≠ i → t.keyw[j] = s.keyw[j])

/-- 40_bus_access.md R115, R116, R117: writes to `ID`, `DIG` and the reserved offsets are ignored, even while busy, and
reads of the reserved offsets answer 0. -/
def Obligations.IgnoredOffsetsTakeNoWrite : Prop :=
  ∀ (s : State) (m : Nat) (v : Word) (off : Offset), off.toNat % 4 = 0 →
    (off = 0x000 ∨ (0x080 ≤ off.toNat ∧ off.toNat ≤ 0x090) ∨ off = 0x014 ∨ (0x020 ≤ off.toNat ∧ off.toNat ≤ 0x03C)
      ∨ 0x094 ≤ off.toNat →
      step (s.facing (.bus (writeAccess m off v)))
        = .next { s with log := (writeAccess m off v, ⟨.okay, none⟩) :: s.log })
    ∧ (off = 0x014 ∨ (0x020 ≤ off.toNat ∧ off.toNat ≤ 0x03C) ∨ 0x094 ≤ off.toNat →
      step (s.facing (.bus (readAccess m off)))
        = .next { s with log := (readAccess m off, ⟨.okay, some 0⟩) :: s.log })

/-- 40_bus_access.md R104: a write to a locked offset while `BUSY` = 1 sets ERR_BUSY and nothing else, whatever its value;
a write to any other offset does not set it. -/
def Obligations.LockedWriteWhileBusySetsOnlyErrBusy : Prop :=
  ∀ (s : State) (m : Nat) (v : Word) (off : Offset), s.status.busy = true → off.toNat % 4 = 0 →
    (off = 0x004 ∨ off = 0x010 ∨ off = 0x018 ∨ off = 0x01C ∨ (0x040 ≤ off.toNat ∧ off.toNat ≤ 0x07C) →
      step (s.facing (.bus (writeAccess m off v)))
        = .next { s with status := { s.status with errBusy := true }
                         log := (writeAccess m off v, ⟨.okay, none⟩) :: s.log })
    ∧ (¬(off = 0x004 ∨ off = 0x010 ∨ off = 0x018 ∨ off = 0x01C ∨ (0x040 ≤ off.toNat ∧ off.toNat ≤ 0x07C)) →
      ∃ t, step (s.facing (.bus (writeAccess m off v))) = .next t
        ∧ (t.status.errBusy = true → s.status.errBusy = true))

/-- 20_memory.md R57: a write that is no command, made twice, leaves the registers as it does once. -/
def Obligations.WritesOtherThanCommandsAreIdempotent : Prop :=
  ∀ (s : State) (m : Nat) (v : Word) (off : Offset), off ≠ 0x004 → ∃ t u,
    step (s.facing (.bus (writeAccess m off v))) = .next t
    ∧ step (t.facing (.bus (writeAccess m off v))) = .next u ∧ u.toBlock = t.toBlock

/-! ## Errors -/

/-- 20_memory.md R55 and 60_exceptions.md R201: an access of another width or alignment gets the error response, a read
the data 0, and changes no register. -/
def Obligations.OtherAccessesGetABusErrorOnly : Prop :=
  ∀ (s : State) (a : Access), a.bytes ≠ 4 ∨ a.off.toNat % 4 ≠ 0 →
    step (s.facing (.bus a))
      = .next { s with log := (a, ⟨.busError a.off, if a.write.isNone then some 0 else none⟩) :: s.log }

/-- 60_exceptions.md R202, R204: an access that raises an error raises the first of the list only, and changes nothing but
its bit; any other access sets no error bit. -/
def Obligations.EachAccessRaisesAtMostItsFirstError : Prop :=
  ∀ (s : State) (a : Access), ∃ t, step (s.facing (.bus a)) = .next t
    ∧ match accessError a s.toBlock with
      | some .busError => t.toBlock = s.toBlock
      | some .errBusy => t.toBlock = { s.toBlock with status := { s.status with errBusy := true } }
      | some .errCmd => t.toBlock = { s.toBlock with status := { s.status with errCmd := true } }
      | some .errKeyLen => t.toBlock = { s.toBlock with status := { s.status with errKeyLen := true } }
      | none => (t.status.errBusy = true → s.status.errBusy = true) ∧ (t.status.errCmd = true → s.status.errCmd = true)
          ∧ (t.status.errKeyLen = true → s.status.errKeyLen = true)

/-- 60_exceptions.md R203: an error bit falls only by a W1C write of 1 to it or by a reset. -/
def Obligations.ErrorBitsAreSticky : Prop :=
  ∀ s t : State, step s = .next t →
    (s.status.errCmd = true → t.status.errCmd = false →
      (∃ held, s.nextEvent = .reset held)
      ∨ ∃ m v, s.nextEvent.access = some (writeAccess m 0x008 v) ∧ v.getLsbD 2 = true)
    ∧ (s.status.errKeyLen = true → t.status.errKeyLen = false →
      (∃ held, s.nextEvent = .reset held)
      ∨ ∃ m v, s.nextEvent.access = some (writeAccess m 0x008 v) ∧ v.getLsbD 3 = true)
    ∧ (s.status.errBusy = true → t.status.errBusy = false →
      (∃ held, s.nextEvent = .reset held)
      ∨ ∃ m v, s.nextEvent.access = some (writeAccess m 0x008 v) ∧ v.getLsbD 4 = true)

/-! ## Interrupt -/

/-- 10_state.md R34. -/
def Obligations.IrqIsTheEnabledPendingLevel : Prop :=
  State.reset.irq = false
  ∧ ∀ b : Block, b.irq = true ↔
    (b.irqEn.doneIe = true ∧ b.status.done = true)
    ∨ (b.irqEn.errIe = true ∧ (b.status.errCmd = true ∨ b.status.errKeyLen = true ∨ b.status.errBusy = true))

/-- 60_exceptions.md R206: "Clearing every enabled pending bit drops irq in the same step." -/
def Obligations.ClearingEnabledPendingBitsDropsIrq : Prop :=
  ∀ (s : State) (m : Nat) (v : Word),
    (s.irqEn.doneIe = true → s.status.done = true → v.getLsbD 1 = true) →
    (s.irqEn.errIe = true → (s.status.errCmd = true → v.getLsbD 2 = true)
      ∧ (s.status.errKeyLen = true → v.getLsbD 3 = true) ∧ (s.status.errBusy = true → v.getLsbD 4 = true)) →
    ∃ t, step (s.facing (.bus (writeAccess m 0x008 v))) = .next t ∧ t.irq = false

/-! ## The engine -/

/-- 41_commands.md R135: the engine's turn completes the command, with what it leaves unchanged; and while `BUSY` = 1 a host
access, by offset or by platform address, leaves the command running and its operands, its digest and `DIG` as they are.
That the engine's turn with `BUSY` = 0 answers the same state is the model's choice (log 2): the rule enables the step only where `BUSY` = 1. -/
def Obligations.CompletionPublishesAndWipes : Prop :=
  ∀ s : State,
    (∀ d : Vector Word 5, s.status.busy = true → s.pending = some d →
      ∃ t, step (s.facing .engine) = .next t
      ∧ t.dig = d ∧ (∀ i : Fin 16, t.keyw[i] = 0) ∧ t.keyLen = 127 ∧ t.msgHi = 0 ∧ t.msgLo = 0 ∧ t.pending = none
      ∧ t.status.busy = false ∧ t.status.done = true
      ∧ t.status.errCmd = s.status.errCmd ∧ t.status.errKeyLen = s.status.errKeyLen
      ∧ t.status.errBusy = s.status.errBusy ∧ t.irqEn = s.irqEn
      ∧ t.inputs = s.inputs ∧ t.log = s.log ∧ t.resetAccesses = s.resetAccesses)
    ∧ (s.status.busy = false → step (s.facing .engine) = .next s)
    ∧ (∀ e : Event, s.status.busy = true → (∀ held, e ≠ .reset held) → e ≠ .engine →
      ∃ t, step (s.facing e) = .next t
      ∧ t.status.busy = true ∧ t.pending = s.pending ∧ t.dig = s.dig
      ∧ t.keyw = s.keyw ∧ t.keyLen = s.keyLen ∧ t.msgHi = s.msgHi ∧ t.msgLo = s.msgLo)

/-- 70_reset_and_hazards.md R246: the run of a master's host program is over exactly when it has no access left and
`BUSY` = 0, whatever else is to come; the program is known by its master (log 15). 41_commands.md R140: with `BUSY` = 0 and
no event left the block is idle, "not stuck"; that the machine then answers the same state is the model's choice (log 2). -/
def Obligations.MachineIsIdleWhenTheRunIsOver : Prop :=
  (∀ (m : Nat) (s : State), s.runOver m = true ↔
      s.status.busy = false ∧ ∀ e ∈ s.inputs, ∀ a ∈ e.accesses, a.master ≠ m)
    ∧ (∀ s : State, s.status.busy = false → s.inputs = [] → (∀ m, s.runOver m = true) ∧ step s = .next s)

/-- 41_commands.md R136 in the model's terms (log 2): an accepted command completes within the events still to come and
one step more, unless one of them is a reset, and publishes the digest fixed at its acceptance. -/
def Obligations.CompletionIsEventual : Prop :=
  ∀ (s : State) (d : Vector Word 5), s.status.busy = true → s.pending = some d →
    (∀ e ∈ s.inputs, ∀ held, e ≠ .reset held) →
    ∃ (k : Nat) (t : State), k ≤ s.inputs.length + 1 ∧ Host.Core.run Sys2Proof.core k s = .next t
      ∧ t.status.busy = false ∧ t.status.done = true ∧ t.dig = d

/-- 10_state.md R26, R35, R36: `BUSY` falls only by completion, which publishes `PENDING` and leaves no key, length or
message behind, or by reset. -/
def Obligations.BusyFallsOnlyByCompletionOrReset : Prop :=
  ∀ s t : State, step s = .next t → s.status.busy = true → t.status.busy = false →
    ((∃ held, s.nextEvent = .reset held) ∧ t.toBlock = Block.reset)
    ∨ (s.nextEvent = .engine ∧ s.pending = some t.dig ∧ t.pending = none ∧ t.status.done = true
      ∧ t.keyw = Vector.replicate 16 0 ∧ t.keyLen = 127 ∧ t.msgHi = 0 ∧ t.msgLo = 0)

/-- 10_state.md R26: `BUSY` rises only by the acceptance of an HMAC command word with a legal key length. -/
def Obligations.BusyRisesOnlyByAcceptedHmac : Prop :=
  ∀ s t : State, step s = .next t → s.status.busy = false → t.status.busy = true →
    (∃ m, s.nextEvent.access = some (writeAccess m 0x004 0x00000001))
    ∧ s.keyLen.toNat ≤ 64 ∧ t.pending = some s.hmacDigest ∧ t.dig = Vector.replicate 5 0 ∧ t.status.done = false

/-- 10_state.md R33: what sets and what clears `DONE`. -/
def Obligations.DoneChangesOnlyAsTheRulesSay : Prop :=
  ∀ s t : State, step s = .next t →
    (s.status.done = false → t.status.done = true →
      (s.nextEvent = .engine ∧ s.status.busy = true)
      ∨ (s.status.busy = false ∧ ∃ m, s.nextEvent.access = some (writeAccess m 0x004 0x00000002)))
    ∧ (s.status.done = true → t.status.done = false →
      (∃ held, s.nextEvent = .reset held)
      ∨ (∃ m v, s.nextEvent.access = some (writeAccess m 0x008 v) ∧ v.getLsbD 1 = true)
      ∨ (s.status.busy = false ∧ ∃ m, s.nextEvent.access = some (writeAccess m 0x004 0x00000001)))

/-- 40_bus_access.md R114: the digest survives until the next accepted HMAC or ZEROIZE, a completion or a reset. -/
def Obligations.DigestSurvivesUntilNextCommandOrReset : Prop :=
  ∀ s t : State, step s = .next t → t.dig ≠ s.dig →
    ((∃ held, s.nextEvent = .reset held) ∧ t.dig = Vector.replicate 5 0)
    ∨ (s.nextEvent = .engine ∧ s.status.busy = true ∧ s.pending = some t.dig)
    ∨ (s.status.busy = false ∧ t.dig = Vector.replicate 5 0
      ∧ ∃ m v, s.nextEvent.access = some (writeAccess m 0x004 v) ∧ (v = 0x00000001 ∨ v = 0x00000002))

/-! ## Secrecy, masters, addresses -/

/-- 10_state.md R30, R40: two states that differ in the key words and in `PENDING` only answer every access alike, and
differ in nothing else after it. -/
def Obligations.NoAccessRevealsKeyOrPending : Prop :=
  ∀ (s : State) (k : Vector Word 16) (p : Option (Vector Word 5)) (a : Access), ∃ t u,
    step (s.facing (.bus a)) = .next t
    ∧ step (State.facing { s with keyw := k, pending := p } (.bus a)) = .next u
    ∧ u.log = t.log
    ∧ u = { t with keyw := u.keyw, pending := u.pending }

/-- 60_exceptions.md R210: "Every access that reaches the window is served by the same rules, whoever the master is." -/
def Obligations.MastersAreServedAlike : Prop :=
  ∀ (s : State) (m n : Nat) (off : Offset) (bytes : Nat) (w : Option Word), ∃ t u,
    step (s.facing (.bus ⟨m, off, bytes, w⟩)) = .next t ∧ step (s.facing (.bus ⟨n, off, bytes, w⟩)) = .next u
    ∧ t.toBlock = u.toBlock ∧ t.lastResponse.isSome = true ∧ t.lastResponse = u.lastResponse

/-- 20_memory.md R52, for every `BASE`. That an access outside the window leaves no response either is the model's
reading (log 7). -/
def Obligations.PlatformAddressesReachTheWindowOnly : Prop :=
  (∀ (s : State) (m : Nat) (off : Offset) (n : Nat) (w : Option Word), ∃ t u,
      step (s.facing (.mem ⟨m, Config.base + off.toNat, n, w⟩)) = .next t
      ∧ step (s.facing (.bus ⟨m, off, n, w⟩)) = .next u ∧ t = u)
    ∧ (∀ (s : State) (a : PlatformAccess), a.addr < Config.base ∨ Config.base + 0xFFF < a.addr →
      step (s.facing (.mem a)) = .next s)

/-! ## Whole machine -/

/-- Every step keeps the invariant: `PENDING` and `BUSY` agree, the digest it holds is that of the operands in the registers,
`KEY_LEN` stays legal, `DIG` is 0 while busy, `BUSY` and `DONE` exclude each other. -/
def Obligations.StepKeepsInvariant : Prop := ∀ s t : State, Inv s → step s = .next t → Inv t

/-- 41_commands.md R140: "No step is ever stuck", and none refuses, from every state that meets the invariant. -/
def Obligations.NoStepIsStuck : Prop := ∀ s : State, Inv s → ∃ t, step s = .next t

/-! ## Host transactions and reference functions -/

/-- 30_encoding.md R81, `LOADKEY` and `LOADMSG` on an idle block, whatever its registers held: the key and the message a
following HMAC uses are k and bytes8(c). -/
def Obligations.LoadKeyAndLoadMsgPlaceTheOperands : Prop :=
  ∀ (s : State) (m : Nat) (k : List Byte) (c : BitVec 64), s.status.busy = false → k.length ≤ 64 →
    ∃ t : State,
      Host.Core.run Sys2Proof.core (loadKey m k ++ loadMsg m c).length
        { s with inputs := loadKey m k ++ loadMsg m c ++ s.inputs } = .next t
      ∧ t.inputs = s.inputs ∧ t.status = s.status ∧ t.dig = s.dig ∧ t.pending = s.pending ∧ t.irqEn = s.irqEn
      ∧ t.keyLen.toNat = k.length ∧ t.keyBytes k.length = k ∧ t.message = bytesOf64 c

/-- 48_host_reference.md R186: "If the steps are followed with no other master active, then D = HMAC_SHA1(K, bytes8(c))",
for every key, every counter, every number of polls and every place of the completion among them (logs 1, 12; a key of 2^64
bits or more, log 18). The status
read shows a digest, the five words read are its words, and the block is left wiped. -/
def Obligations.BlockMacSequenceReadsTheDigest : Prop :=
  ∀ (s : State) (m n0 n1 n2 : Nat) (k : List Byte) (c : BitVec 64), s.status.busy = false →
    ∃ (t : State) (x : Word),
      Host.Core.run Sys2Proof.core (blockMacEvents m (hostKey k) c n0 n1 n2).length
        { s with inputs := blockMacEvents m (hostKey k) c n0 n1 n2 ++ s.inputs } = .next t
      ∧ t.inputs = s.inputs
      ∧ statusShowsDigest x = true
      ∧ ((t.log.take 8).reverse.map fun p => p.2.data) = some x
          :: ((digestWords (hmacSha1 (hostKey k) (bytesOf64 c))).toList.map some ++ [none, none])
      ∧ ((t.log.take 8).reverse.map fun p => p.1.off) = [0x008, 0x080, 0x084, 0x088, 0x08C, 0x090, 0x008, 0x004]
      ∧ (∀ p ∈ t.log.take 8, p.2.status = .okay)
      ∧ (k.length ≤ 64 → hostKey k = k) ∧ (64 < k.length → hostKey k = sha1 k)
      ∧ t.toBlock = { Block.reset with status := ⟨false, true, false, false, false⟩, irqEn := s.irqEn }

/-- 48_host_reference.md R182, R183: a decoded secret of q characters has floor(5 q / 8) bytes. -/
def Obligations.Base32YieldsFiveEighthsOfItsCharacters : Prop :=
  ∀ (s : List Char) (k : List Byte), base32Decode s = .ok k →
    k.length = 5 * (s.filter (· != '=')).length / 8 ∧ s.length % 8 = 0

/-- 48_host_reference.md R184: the exact floor, never wrapped, for every timestamp that is not refused; and the three
refusals. Timestamps are exact rationals by the model's choice (log 12); that a refusal is reported as the cause
`badTimestamp` is the model's choice too (log 16). -/
def Obligations.IntervalIsTheExactFloorOrRefused : Prop :=
  interval .notANumber = .error .badTimestamp
    ∧ ∀ t : Rat,
      (0 ≤ t → t < 30 * 2 ^ 64 → ∃ c, interval (.seconds t) = .ok c ∧ (c.toNat : Int) = (t / 30).floor)
      ∧ (t < 0 ∨ 30 * 2 ^ 64 ≤ t → interval (.seconds t) = .error .badTimestamp)

/-- 48_host_reference.md R189: "Interval(ts) is non-decreasing in ts". Timestamps are exact rationals by the model's
choice (log 12). -/
def Obligations.IntervalIsMonotone : Prop :=
  ∀ (t u : Rat) (c d : BitVec 64), t ≤ u → interval (.seconds t) = .ok c → interval (.seconds u) = .ok d →
    c.toNat ≤ d.toNat

/-- 48_host_reference.md R187: the slice lies inside a 20-byte digest. -/
def Obligations.TruncateTakesFourBytesInside : Prop :=
  ∀ d : List Byte, d.length = 20 →
    truncateOffset d = (d.getD 19 0).toNat % 16 ∧ truncateOffset d + 4 ≤ 19
    ∧ truncate d = (d.drop (truncateOffset d)).take 4

/-- 48_host_reference.md R188: the code of four bytes, and its six decimal digits. -/
def Obligations.FoldGivesTheCodeInSixDigits : Prop :=
  ∀ a b c d : Byte,
    foldCode [a, b, c, d] = (a.toNat * 2 ^ 24 + b.toNat * 2 ^ 16 + c.toNat * 2 ^ 8 + d.toNat) % 2 ^ 31 % 1000000
    ∧ (fold [a, b, c, d]).length = 6 ∧ (∀ x ∈ fold [a, b, c, d], x.isDigit = true)
    ∧ Nat.ofDigitChars 10 (fold [a, b, c, d]) 0 = foldCode [a, b, c, d]

/-! ## Host programs -/

/-- 30_encoding.md R80: a host turn at `WR`, `RD` or `POLL` makes its one access; a read value is kept; a poll is left exactly
when the masked value matches. -/
def Obligations.HostTurnPerformsOneTransaction : Prop :=
  ∀ (σ : System) (off : Offset) (rest : List HostOp), off.toNat % 4 = 0 →
    (∀ v, σ.host.todo = .wr off v :: rest → ∃ t,
      step (σ.machine.facing (.bus (writeAccess σ.host.master off v))) = .next t
      ∧ σ.turn .host = .next ⟨t, { σ.host with todo := rest }⟩)
    ∧ (σ.host.todo = .rd off :: rest → ∃ (t : State) (x : Word),
      step (σ.machine.facing (.bus (readAccess σ.host.master off))) = .next t
      ∧ t.lastResponse = some ⟨.okay, some x⟩
      ∧ σ.turn .host = .next ⟨t, { σ.host with todo := rest, words := σ.host.words ++ [x] }⟩)
    ∧ (∀ mask value, σ.host.todo = .poll off mask value :: rest → ∃ (t : State) (x : Word),
      step (σ.machine.facing (.bus (readAccess σ.host.master off))) = .next t
      ∧ t.lastResponse = some ⟨.okay, some x⟩
      ∧ (x &&& mask = value → σ.turn .host = .next ⟨t, { σ.host with todo := rest }⟩)
      ∧ (x &&& mask ≠ value → σ.turn .host = .next ⟨t, σ.host⟩))

/-- 48_host_reference.md R186: "If the steps are followed with no other master active, then D = HMAC_SHA1(K, bytes8(c))". From
every state of a run, under every schedule of host turns and engine's turns alone (logs 17, 18), the program is under way or has
given that digest; and from an idle block it gives it as soon as it has had the turns it needs before and after a
completion. -/
def Obligations.BlockMacGivesTheDigestOrIsUnderWay : Prop :=
  (∀ (s : State) (m : Nat) (k : List Byte) (c : BitVec 64) (turns : List Turn), Inv s →
      (∀ tn ∈ turns, tn = .host ∨ tn = .other .engine) →
      ∃ σ, System.run turns ⟨s, blockMacHost m k c⟩ = .next σ
        ∧ (σ.host.outcome = none ∨ σ.host.outcome = some (.ok (hmacSha1 (hostKey k) (bytesOf64 c)))))
    ∧ (∀ (s : State) (m : Nat) (k : List Byte) (c : BitVec 64) (a b : Nat), s.status.busy = false →
      (loadKey m (hostKey k)).length + 5 ≤ a → 9 ≤ b →
      ∃ σ, System.run (List.replicate a .host ++ [.other .engine] ++ List.replicate b .host) ⟨s, blockMacHost m k c⟩ = .next σ
        ∧ σ.host.outcome = some (.ok (hmacSha1 (hostKey k) (bytesOf64 c))) ∧ σ.runOver = true)

/-- 48_host_reference.md R186, `if s[4:2] != 0 or s[1] = 0: fail`, "never a code": a status without `DONE`, or with an error
bit, ends the program with a failure that nothing after it takes back. How it is reported is the model's (log 16). -/
def Obligations.FailedStatusCheckIsSurfaced : Prop :=
  (∀ f : Status, statusShowsDigest f.toWord = (f.done && !f.anyError))
    ∧ (∀ (σ : System) (rest : List HostOp), σ.host.todo = .check :: rest →
      (σ.machine.status.done = false ∨ σ.machine.status.anyError = true) →
      ∃ τ, σ.turn .host = .next τ ∧ τ.machine.toBlock = σ.machine.toBlock
        ∧ ∀ (turns : List Turn) (υ : System), τ.run turns = .next υ →
          υ.host.todo = [] ∧ υ.host.outcome = some (.error .macFailed) ∧ υ.host.code = some (.error .macFailed))

/-- 48_host_reference.md R180: a failure before the block is the result, and the host makes no access; a failure of the MAC
stage is the result; otherwise the code is that of the pipeline, under every schedule of host and engine (logs 17, 18). -/
def Obligations.GenerateCodeIsThePipelineOrItsFirstFailure : Prop :=
  ∀ (secret : List Char) (ts : Option Timestamp) (now : Timestamp) (m : Nat) (turns : List Turn) (s : State),
    (∀ e, (base32Decode secret = .error e
        ∨ ∃ k, base32Decode secret = .ok k ∧ interval (ts.getD now) = .error e) →
      (codeHost m secret ts now).nextAccess = none
      ∧ ∀ σ, System.run turns ⟨s, codeHost m secret ts now⟩ = .next σ →
        σ.host = codeHost m secret ts now
        ∧ generateCode secret ts now m turns s = .next (σ.machine, some (.error e)))
    ∧ (∀ k c, base32Decode secret = .ok k → interval (ts.getD now) = .ok c →
      codeHost m secret ts now = blockMacHost m k c
      ∧ (∀ σ e, System.run turns ⟨s, codeHost m secret ts now⟩ = .next σ → σ.host.outcome = some (.error e) →
        generateCode secret ts now m turns s = .next (σ.machine, some (.error e)))
      ∧ (Inv s → (∀ tn ∈ turns, tn = .host ∨ tn = .other .engine) →
        ∃ t r, generateCode secret ts now m turns s = .next (t, r)
          ∧ (r = none ∨ r = some (.ok (fold (truncate (hmacSha1 (hostKey k) (bytesOf64 c))))))))
end

