-- ==== Sys2Proof/Laws/State.lean ====
section
/-! SUPPORT. One lemma per field per named update of State, each true by rfl, so that no proof unfolds a record update. -/

namespace Sys2Proof.Machine

variable (s : State)

/-! `raiseError` -/

@[simp] theorem raiseError_status (c : ErrorCause) : (raiseError c s).status = s.status.setError c := rfl
@[simp] theorem raiseError_irqEn (c : ErrorCause) : (raiseError c s).irqEn = s.irqEn := rfl
@[simp] theorem raiseError_keyLen (c : ErrorCause) : (raiseError c s).keyLen = s.keyLen := rfl
@[simp] theorem raiseError_msgHi (c : ErrorCause) : (raiseError c s).msgHi = s.msgHi := rfl
@[simp] theorem raiseError_msgLo (c : ErrorCause) : (raiseError c s).msgLo = s.msgLo := rfl
@[simp] theorem raiseError_keyw (c : ErrorCause) : (raiseError c s).keyw = s.keyw := rfl
@[simp] theorem raiseError_dig (c : ErrorCause) : (raiseError c s).dig = s.dig := rfl
@[simp] theorem raiseError_pending (c : ErrorCause) : (raiseError c s).pending = s.pending := rfl
@[simp] theorem raiseError_inputs (c : ErrorCause) : (raiseError c s).inputs = s.inputs := rfl
@[simp] theorem raiseError_log (c : ErrorCause) : (raiseError c s).log = s.log := rfl
@[simp] theorem raiseError_resetAccesses (c : ErrorCause) : (raiseError c s).resetAccesses = s.resetAccesses := rfl

/-! `wipeOperands` -/

@[simp] theorem wipeOperands_status : (wipeOperands s).status = s.status := rfl
@[simp] theorem wipeOperands_irqEn : (wipeOperands s).irqEn = s.irqEn := rfl
@[simp] theorem wipeOperands_keyLen : (wipeOperands s).keyLen = 127 := rfl
@[simp] theorem wipeOperands_msgHi : (wipeOperands s).msgHi = 0 := rfl
@[simp] theorem wipeOperands_msgLo : (wipeOperands s).msgLo = 0 := rfl
@[simp] theorem wipeOperands_keyw : (wipeOperands s).keyw = Vector.replicate 16 0 := rfl
@[simp] theorem wipeOperands_dig : (wipeOperands s).dig = s.dig := rfl
@[simp] theorem wipeOperands_pending : (wipeOperands s).pending = s.pending := rfl
@[simp] theorem wipeOperands_inputs : (wipeOperands s).inputs = s.inputs := rfl
@[simp] theorem wipeOperands_log : (wipeOperands s).log = s.log := rfl
@[simp] theorem wipeOperands_resetAccesses : (wipeOperands s).resetAccesses = s.resetAccesses := rfl

/-! `setDigest` -/

@[simp] theorem setDigest_status (d : Vector Word 5) : (setDigest d s).status = s.status := rfl
@[simp] theorem setDigest_irqEn (d : Vector Word 5) : (setDigest d s).irqEn = s.irqEn := rfl
@[simp] theorem setDigest_keyLen (d : Vector Word 5) : (setDigest d s).keyLen = s.keyLen := rfl
@[simp] theorem setDigest_msgHi (d : Vector Word 5) : (setDigest d s).msgHi = s.msgHi := rfl
@[simp] theorem setDigest_msgLo (d : Vector Word 5) : (setDigest d s).msgLo = s.msgLo := rfl
@[simp] theorem setDigest_keyw (d : Vector Word 5) : (setDigest d s).keyw = s.keyw := rfl
@[simp] theorem setDigest_dig (d : Vector Word 5) : (setDigest d s).dig = d := rfl
@[simp] theorem setDigest_pending (d : Vector Word 5) : (setDigest d s).pending = s.pending := rfl
@[simp] theorem setDigest_inputs (d : Vector Word 5) : (setDigest d s).inputs = s.inputs := rfl
@[simp] theorem setDigest_log (d : Vector Word 5) : (setDigest d s).log = s.log := rfl
@[simp] theorem setDigest_resetAccesses (d : Vector Word 5) : (setDigest d s).resetAccesses = s.resetAccesses := rfl

/-! `setBusyDone` -/

@[simp] theorem setBusyDone_status (b d : Bool) : (setBusyDone b d s).status = { s.status with busy := b, done := d } := rfl
@[simp] theorem setBusyDone_irqEn (b d : Bool) : (setBusyDone b d s).irqEn = s.irqEn := rfl
@[simp] theorem setBusyDone_keyLen (b d : Bool) : (setBusyDone b d s).keyLen = s.keyLen := rfl
@[simp] theorem setBusyDone_msgHi (b d : Bool) : (setBusyDone b d s).msgHi = s.msgHi := rfl
@[simp] theorem setBusyDone_msgLo (b d : Bool) : (setBusyDone b d s).msgLo = s.msgLo := rfl
@[simp] theorem setBusyDone_keyw (b d : Bool) : (setBusyDone b d s).keyw = s.keyw := rfl
@[simp] theorem setBusyDone_dig (b d : Bool) : (setBusyDone b d s).dig = s.dig := rfl
@[simp] theorem setBusyDone_pending (b d : Bool) : (setBusyDone b d s).pending = s.pending := rfl
@[simp] theorem setBusyDone_inputs (b d : Bool) : (setBusyDone b d s).inputs = s.inputs := rfl
@[simp] theorem setBusyDone_log (b d : Bool) : (setBusyDone b d s).log = s.log := rfl
@[simp] theorem setBusyDone_resetAccesses (b d : Bool) : (setBusyDone b d s).resetAccesses = s.resetAccesses := rfl

/-! `setPending` -/

@[simp] theorem setPending_status (p : Option (Vector Word 5)) : (setPending p s).status = s.status := rfl
@[simp] theorem setPending_irqEn (p : Option (Vector Word 5)) : (setPending p s).irqEn = s.irqEn := rfl
@[simp] theorem setPending_keyLen (p : Option (Vector Word 5)) : (setPending p s).keyLen = s.keyLen := rfl
@[simp] theorem setPending_msgHi (p : Option (Vector Word 5)) : (setPending p s).msgHi = s.msgHi := rfl
@[simp] theorem setPending_msgLo (p : Option (Vector Word 5)) : (setPending p s).msgLo = s.msgLo := rfl
@[simp] theorem setPending_keyw (p : Option (Vector Word 5)) : (setPending p s).keyw = s.keyw := rfl
@[simp] theorem setPending_dig (p : Option (Vector Word 5)) : (setPending p s).dig = s.dig := rfl
@[simp] theorem setPending_pending (p : Option (Vector Word 5)) : (setPending p s).pending = p := rfl
@[simp] theorem setPending_inputs (p : Option (Vector Word 5)) : (setPending p s).inputs = s.inputs := rfl
@[simp] theorem setPending_log (p : Option (Vector Word 5)) : (setPending p s).log = s.log := rfl
@[simp] theorem setPending_resetAccesses (p : Option (Vector Word 5)) : (setPending p s).resetAccesses = s.resetAccesses := rfl

/-! `acceptHmac` -/

@[simp] theorem acceptHmac_status : (acceptHmac s).status = { s.status with busy := true, done := false } := rfl
@[simp] theorem acceptHmac_irqEn : (acceptHmac s).irqEn = s.irqEn := rfl
@[simp] theorem acceptHmac_keyLen : (acceptHmac s).keyLen = s.keyLen := rfl
@[simp] theorem acceptHmac_msgHi : (acceptHmac s).msgHi = s.msgHi := rfl
@[simp] theorem acceptHmac_msgLo : (acceptHmac s).msgLo = s.msgLo := rfl
@[simp] theorem acceptHmac_keyw : (acceptHmac s).keyw = s.keyw := rfl
@[simp] theorem acceptHmac_dig : (acceptHmac s).dig = Vector.replicate 5 0 := rfl
@[simp] theorem acceptHmac_pending : (acceptHmac s).pending = some s.hmacDigest := rfl
@[simp] theorem acceptHmac_inputs : (acceptHmac s).inputs = s.inputs := rfl
@[simp] theorem acceptHmac_log : (acceptHmac s).log = s.log := rfl
@[simp] theorem acceptHmac_resetAccesses : (acceptHmac s).resetAccesses = s.resetAccesses := rfl

/-! `zeroize` -/

@[simp] theorem zeroize_status : (zeroize s).status = { s.status with done := true } := rfl
@[simp] theorem zeroize_irqEn : (zeroize s).irqEn = s.irqEn := rfl
@[simp] theorem zeroize_keyLen : (zeroize s).keyLen = 127 := rfl
@[simp] theorem zeroize_msgHi : (zeroize s).msgHi = 0 := rfl
@[simp] theorem zeroize_msgLo : (zeroize s).msgLo = 0 := rfl
@[simp] theorem zeroize_keyw : (zeroize s).keyw = Vector.replicate 16 0 := rfl
@[simp] theorem zeroize_dig : (zeroize s).dig = Vector.replicate 5 0 := rfl
@[simp] theorem zeroize_pending : (zeroize s).pending = s.pending := rfl
@[simp] theorem zeroize_inputs : (zeroize s).inputs = s.inputs := rfl
@[simp] theorem zeroize_log : (zeroize s).log = s.log := rfl
@[simp] theorem zeroize_resetAccesses : (zeroize s).resetAccesses = s.resetAccesses := rfl

/-! `completeWith` -/

@[simp] theorem completeWith_status (d : Vector Word 5) : (completeWith d s).status = { s.status with busy := false, done := true } := rfl
@[simp] theorem completeWith_irqEn (d : Vector Word 5) : (completeWith d s).irqEn = s.irqEn := rfl
@[simp] theorem completeWith_keyLen (d : Vector Word 5) : (completeWith d s).keyLen = 127 := rfl
@[simp] theorem completeWith_msgHi (d : Vector Word 5) : (completeWith d s).msgHi = 0 := rfl
@[simp] theorem completeWith_msgLo (d : Vector Word 5) : (completeWith d s).msgLo = 0 := rfl
@[simp] theorem completeWith_keyw (d : Vector Word 5) : (completeWith d s).keyw = Vector.replicate 16 0 := rfl
@[simp] theorem completeWith_dig (d : Vector Word 5) : (completeWith d s).dig = d := rfl
@[simp] theorem completeWith_pending (d : Vector Word 5) : (completeWith d s).pending = none := rfl
@[simp] theorem completeWith_inputs (d : Vector Word 5) : (completeWith d s).inputs = s.inputs := rfl
@[simp] theorem completeWith_log (d : Vector Word 5) : (completeWith d s).log = s.log := rfl
@[simp] theorem completeWith_resetAccesses (d : Vector Word 5) : (completeWith d s).resetAccesses = s.resetAccesses := rfl

/-! `writeStatus` -/

@[simp] theorem writeStatus_status (v : Word) : (writeStatus v s).status = s.status.w1c v := rfl
@[simp] theorem writeStatus_irqEn (v : Word) : (writeStatus v s).irqEn = s.irqEn := rfl
@[simp] theorem writeStatus_keyLen (v : Word) : (writeStatus v s).keyLen = s.keyLen := rfl
@[simp] theorem writeStatus_msgHi (v : Word) : (writeStatus v s).msgHi = s.msgHi := rfl
@[simp] theorem writeStatus_msgLo (v : Word) : (writeStatus v s).msgLo = s.msgLo := rfl
@[simp] theorem writeStatus_keyw (v : Word) : (writeStatus v s).keyw = s.keyw := rfl
@[simp] theorem writeStatus_dig (v : Word) : (writeStatus v s).dig = s.dig := rfl
@[simp] theorem writeStatus_pending (v : Word) : (writeStatus v s).pending = s.pending := rfl
@[simp] theorem writeStatus_inputs (v : Word) : (writeStatus v s).inputs = s.inputs := rfl
@[simp] theorem writeStatus_log (v : Word) : (writeStatus v s).log = s.log := rfl
@[simp] theorem writeStatus_resetAccesses (v : Word) : (writeStatus v s).resetAccesses = s.resetAccesses := rfl

/-! `writeIrqEn` -/

@[simp] theorem writeIrqEn_status (v : Word) : (writeIrqEn v s).status = s.status := rfl
@[simp] theorem writeIrqEn_irqEn (v : Word) : (writeIrqEn v s).irqEn = IrqEn.ofWord v := rfl
@[simp] theorem writeIrqEn_keyLen (v : Word) : (writeIrqEn v s).keyLen = s.keyLen := rfl
@[simp] theorem writeIrqEn_msgHi (v : Word) : (writeIrqEn v s).msgHi = s.msgHi := rfl
@[simp] theorem writeIrqEn_msgLo (v : Word) : (writeIrqEn v s).msgLo = s.msgLo := rfl
@[simp] theorem writeIrqEn_keyw (v : Word) : (writeIrqEn v s).keyw = s.keyw := rfl
@[simp] theorem writeIrqEn_dig (v : Word) : (writeIrqEn v s).dig = s.dig := rfl
@[simp] theorem writeIrqEn_pending (v : Word) : (writeIrqEn v s).pending = s.pending := rfl
@[simp] theorem writeIrqEn_inputs (v : Word) : (writeIrqEn v s).inputs = s.inputs := rfl
@[simp] theorem writeIrqEn_log (v : Word) : (writeIrqEn v s).log = s.log := rfl
@[simp] theorem writeIrqEn_resetAccesses (v : Word) : (writeIrqEn v s).resetAccesses = s.resetAccesses := rfl

/-! `respond` -/

@[simp] theorem respond_status (a : Access) (r : Response) : (respond a r s).status = s.status := rfl
@[simp] theorem respond_irqEn (a : Access) (r : Response) : (respond a r s).irqEn = s.irqEn := rfl
@[simp] theorem respond_keyLen (a : Access) (r : Response) : (respond a r s).keyLen = s.keyLen := rfl
@[simp] theorem respond_msgHi (a : Access) (r : Response) : (respond a r s).msgHi = s.msgHi := rfl
@[simp] theorem respond_msgLo (a : Access) (r : Response) : (respond a r s).msgLo = s.msgLo := rfl
@[simp] theorem respond_keyw (a : Access) (r : Response) : (respond a r s).keyw = s.keyw := rfl
@[simp] theorem respond_dig (a : Access) (r : Response) : (respond a r s).dig = s.dig := rfl
@[simp] theorem respond_pending (a : Access) (r : Response) : (respond a r s).pending = s.pending := rfl
@[simp] theorem respond_inputs (a : Access) (r : Response) : (respond a r s).inputs = s.inputs := rfl
@[simp] theorem respond_log (a : Access) (r : Response) : (respond a r s).log = (a, r) :: s.log := rfl
@[simp] theorem respond_resetAccesses (a : Access) (r : Response) : (respond a r s).resetAccesses = s.resetAccesses := rfl

/-! The registers as a whole: recording a response touches none, and reset sets all. -/

@[simp] theorem respond_toBlock (a : Access) (r : Response) : (respond a r s).toBlock = s.toBlock := rfl
@[simp] theorem resetRegisters_toBlock : (resetRegisters s).toBlock = Block.reset := rfl
@[simp] theorem resetRegisters_inputs : (resetRegisters s).inputs = s.inputs := rfl
@[simp] theorem resetRegisters_log : (resetRegisters s).log = s.log := rfl
@[simp] theorem resetRegisters_resetAccesses : (resetRegisters s).resetAccesses = s.resetAccesses := rfl

end Sys2Proof.Machine
end

