-- ==== Sys2Proof/Laws/Ops.lean ====
section
/-! SUPPORT. What the shared operations and the meanings of the commands can do, said once. -/

namespace Sys2Proof.Machine

@[simp] theorem onNext_next (f : State → State) (s : State) : onNext f (.next s) = .next (f s) := rfl

/-- An outcome followed by f answers next exactly where the outcome does. -/
theorem onNext_eq_next {f : State → State} {o : Host.Outcome State Fault Refusal} {t : State}
    (h : onNext f o = .next t) : ∃ s, o = .next s ∧ t = f s := by
  cases o with
  | next s => exact ⟨s, rfl, by simpa [onNext] using h.symm⟩
  | fault r => cases h
  | refused r => cases h

theorem unlessBusy_of_busy {s : State} (t : State) (h : s.status.busy = true) :
    unlessBusy s t = raiseError .errBusy s := by simp [unlessBusy, h]

theorem unlessBusy_of_idle {s : State} (t : State) (h : s.status.busy = false) : unlessBusy s t = t := by
  simp [unlessBusy, h]

@[simp] theorem setError_busy (c : ErrorCause) (f : Status) : (f.setError c).busy = f.busy := by cases c <;> rfl
@[simp] theorem setError_done (c : ErrorCause) (f : Status) : (f.setError c).done = f.done := by cases c <;> rfl

@[simp] theorem w1c_busy (v : Word) (f : Status) : (f.w1c v).busy = f.busy := rfl

/-- A command while `BUSY` = 1 is rejected, whichever it is. -/
theorem exec_of_busy (i : Instr) {s : State} (h : s.status.busy = true) :
    exec i s = .next (raiseError .errBusy s) := by
  cases i <;> simp [exec, execNop, execHmac, execZeroize, unlessBusy_of_busy, h]

/-- A command on an idle block: what each of the three does, the rejection of an HMAC command included. -/
theorem exec_cases {i : Instr} {s t : State} (h : exec i s = .next t) :
    (s.status.busy = true ∧ t = raiseError .errBusy s)
    ∨ (s.status.busy = false ∧
      ((i = .nop ∧ t = s)
      ∨ (i = .hmac ∧ Config.keyMax < s.keyLen.toNat ∧ t = raiseError .errKeyLen s)
      ∨ (i = .hmac ∧ s.keyLen.toNat ≤ Config.keyMax ∧ t = acceptHmac s)
      ∨ (i = .zeroize ∧ t = zeroize s))) := by
  by_cases hb : s.status.busy = true
  · rw [exec_of_busy i hb] at h
    cases h
    exact .inl ⟨hb, rfl⟩
  · have hi : s.status.busy = false := by simpa using hb
    refine .inr ⟨hi, ?_⟩
    cases i with
    | nop =>
      simp only [exec, execNop, unlessBusy_of_idle _ hi] at h
      cases h
      exact .inl ⟨rfl, rfl⟩
    | hmac =>
      simp only [exec, execHmac, unlessBusy_of_idle _ hi] at h
      split at h
      · cases h; exact .inr (.inl ⟨rfl, ‹_›, rfl⟩)
      · cases h; exact .inr (.inr (.inl ⟨rfl, Nat.le_of_not_lt ‹_›, rfl⟩))
    | zeroize =>
      simp only [exec, execZeroize, unlessBusy_of_idle _ hi] at h
      cases h
      exact .inr (.inr (.inr ⟨rfl, rfl⟩))

/-- Every command answers a next state, in every state. -/
theorem exec_answers_next (i : Instr) (s : State) : ∃ t, exec i s = .next t := by
  cases i <;> exact ⟨_, rfl⟩

/-- No command touches the coming events, the responses or the free-value counter, or `IRQ_EN`. -/
theorem exec_frame {i : Instr} {s t : State} (h : exec i s = .next t) :
    t.inputs = s.inputs ∧ t.log = s.log ∧ t.resetAccesses = s.resetAccesses ∧ t.irqEn = s.irqEn := by
  rcases exec_cases h with ⟨-, rfl⟩ | ⟨-, ⟨-, rfl⟩ | ⟨-, -, rfl⟩ | ⟨-, -, rfl⟩ | ⟨-, rfl⟩⟩ <;> simp

end Sys2Proof.Machine
end

