-- ==== Sys2Proof/Laws/Bus.lean ====
section
/-! SUPPORT. What a register write and a bus access can do, said once. -/

namespace Sys2Proof.Machine

/-- A command write: rejected while busy, rejected where reserved, otherwise the command. -/
theorem commandWrite_cases {v : Word} {s t : State} (h : commandWrite v s = .next t) :
    (s.status.busy = true ∧ t = raiseError .errBusy s)
    ∨ (s.status.busy = false ∧ (∃ r, decode v = .reserved r) ∧ t = raiseError .errCmd s)
    ∨ (s.status.busy = false ∧ ∃ i, decode v = .instr i ∧ exec i s = .next t) := by
  by_cases hb : s.status.busy = true
  · simp only [commandWrite, hb, if_true] at h
    cases h
    exact .inl ⟨hb, rfl⟩
  · have hi : s.status.busy = false := by simpa using hb
    simp only [commandWrite, hi, Bool.false_eq_true, if_false] at h
    split at h
    · cases h; exact .inr (.inl ⟨hi, ⟨_, ‹_›⟩, rfl⟩)
    · exact .inr (.inr ⟨hi, _, ‹_›, h⟩)

theorem commandWrite_answers_next (v : Word) (s : State) : ∃ t, commandWrite v s = .next t := by
  unfold commandWrite
  split
  · exact ⟨_, rfl⟩
  · split
    · exact ⟨_, rfl⟩
    · exact exec_answers_next _ _

/-- Every register write answers a next state, in every state. -/
theorem writeReg_answers_next (r : Reg) (v : Word) (s : State) : ∃ t, writeReg r v s = .next t := by
  cases r with
  | cmd => exact commandWrite_answers_next v s
  | _ => exact ⟨_, rfl⟩

/-- A register write with the lock: a locked one while busy, and every register's effect otherwise. -/
theorem writeReg_cases {r : Reg} {v : Word} {s t : State} (h : writeReg r v s = .next t) :
    (s.status.busy = true ∧ r.locked = true ∧ t = raiseError .errBusy s)
    ∨ (r.locked = false ∧ (t = s ∨ (r = .status ∧ t = writeStatus v s) ∨ (r = .irqEn ∧ t = writeIrqEn v s)))
    ∨ (s.status.busy = false ∧
      ((r = .cmd ∧ (∃ w, decode v = .reserved w) ∧ t = raiseError .errCmd s)
      ∨ (r = .cmd ∧ ∃ i, decode v = .instr i ∧ exec i s = .next t)
      ∨ (r = .keyLen ∧ t = { s with keyLen := keyLenOfWord v })
      ∨ (r = .msgHi ∧ t = { s with msgHi := v })
      ∨ (r = .msgLo ∧ t = { s with msgLo := v })
      ∨ (∃ i, r = .keyw i ∧ t = { s with keyw := s.keyw.set i v }))) := by
  by_cases hb : s.status.busy = true
  · cases r with
    | cmd =>
      rcases commandWrite_cases h with ⟨-, rfl⟩ | ⟨h', -⟩ | ⟨h', -⟩
      · exact .inl ⟨hb, rfl, rfl⟩
      · rw [hb] at h'; cases h'
      · rw [hb] at h'; cases h'
    | _ =>
      simp only [writeReg, writeKeyLen, writeMsgHi, writeMsgLo, writeKeyWord, unlessBusy_of_busy _ hb] at h
      cases h
      simp [Reg.locked, hb]
  · have hi : s.status.busy = false := by simpa using hb
    cases r with
    | cmd =>
      rcases commandWrite_cases h with ⟨h', -⟩ | ⟨-, hr, rfl⟩ | ⟨-, i, hd, he⟩
      · exact absurd h' hb
      · exact .inr (.inr ⟨hi, .inl ⟨rfl, hr, rfl⟩⟩)
      · exact .inr (.inr ⟨hi, .inr (.inl ⟨rfl, i, hd, he⟩)⟩)
    | _ =>
      simp only [writeReg, writeKeyLen, writeMsgHi, writeMsgLo, writeKeyWord, unlessBusy_of_idle _ hi] at h
      cases h
      simp [Reg.locked, hi]

/-- A register write touches neither the coming events nor the responses. -/
theorem writeReg_frame {r : Reg} {v : Word} {s t : State} (h : writeReg r v s = .next t) :
    t.inputs = s.inputs ∧ t.log = s.log ∧ t.resetAccesses = s.resetAccesses := by
  rcases writeReg_cases h with ⟨-, -, rfl⟩ | ⟨-, rfl | ⟨-, rfl⟩ | ⟨-, rfl⟩⟩ |
    ⟨-, ⟨-, -, rfl⟩ | ⟨-, i, -, he⟩ | ⟨-, rfl⟩ | ⟨-, rfl⟩ | ⟨-, rfl⟩ | ⟨i, -, rfl⟩⟩
  all_goals first
    | exact ⟨rfl, rfl, rfl⟩
    | exact ⟨(exec_frame he).1, (exec_frame he).2.1, (exec_frame he).2.2.1⟩

/-- A bus access: refused by the width and alignment check, a read, or a register write. -/
theorem busAccess_cases {a : Access} {s t : State} (h : busAccess a s = .next t) :
    (a.wellFormed = false ∧ t = respond a (busErrorResponse a) s)
    ∨ (a.wellFormed = true ∧ a.write = none ∧ t = respond a ⟨.okay, some (readReg s.toBlock (regAt a.off))⟩ s)
    ∨ (a.wellFormed = true ∧ ∃ v u, a.write = some v ∧ writeReg (regAt a.off) v s = .next u
        ∧ t = respond a ⟨.okay, none⟩ u) := by
  by_cases hw : a.wellFormed = true
  · simp only [busAccess, hw, if_true] at h
    split at h
    · cases h; exact .inr (.inl ⟨hw, ‹_›, rfl⟩)
    · obtain ⟨u, hu, rfl⟩ := onNext_eq_next h
      exact .inr (.inr ⟨hw, _, u, ‹_›, hu, rfl⟩)
  · have hf : a.wellFormed = false := by simpa using hw
    simp only [busAccess, hf, Bool.false_eq_true, if_false] at h
    cases h
    exact .inl ⟨hf, rfl⟩

/-- Every access is answered, in every state. -/
theorem busAccess_answers_next (a : Access) (s : State) : ∃ t, busAccess a s = .next t := by
  unfold busAccess
  split
  · split
    · exact ⟨_, rfl⟩
    · obtain ⟨u, hu⟩ := writeReg_answers_next (regAt a.off) ‹_› s
      exact ⟨respond a ⟨.okay, none⟩ u, by rw [hu, onNext_next]⟩
  · exact ⟨_, rfl⟩

end Sys2Proof.Machine
end

