-- ==== Sys2Proof/Laws/Access.lean ====
section
/-! SUPPORT. Which accesses are well formed, which register each offset selects, and the step an access of each kind is. -/

namespace Sys2Proof.Machine

/-- The check of 20_memory.md R55 as numbers. -/
theorem wellFormed_iff {a : Access} : a.wellFormed = true ↔ a.bytes = 4 ∧ a.off.toNat % 4 = 0 := by
  have h : a.off.extractLsb' 0 2 = 0#2 ↔ a.off.toNat % 4 = 0 := by
    rw [← BitVec.toNat_inj]
    simp
  simp [Access.wellFormed, Access.widthOk, Access.aligned, h]

@[simp] theorem regAt_id : regAt 0x000 = .id := by decide
@[simp] theorem regAt_cmd : regAt 0x004 = .cmd := by decide
@[simp] theorem regAt_status : regAt 0x008 = .status := by decide
@[simp] theorem regAt_irqEn : regAt 0x00C = .irqEn := by decide
@[simp] theorem regAt_keyLen : regAt 0x010 = .keyLen := by decide
@[simp] theorem regAt_msgHi : regAt 0x018 = .msgHi := by decide
@[simp] theorem regAt_msgLo : regAt 0x01C = .msgLo := by decide
@[simp] theorem regAt_hole : regAt 0x014 = .reserved := by decide

theorem regAt_keyw {off : Offset} (h : 0x040 ≤ off.toNat ∧ off.toNat ≤ 0x07F) :
    regAt off = .keyw ⟨(off.toNat - 0x040) / 4, by omega⟩ := by
  unfold regAt
  repeat rw [if_neg (by omega)]
  rw [dif_pos h]

theorem regAt_dig {off : Offset} (h : 0x080 ≤ off.toNat ∧ off.toNat ≤ 0x093) :
    regAt off = .dig ⟨(off.toNat - 0x080) / 4, by omega⟩ := by
  unfold regAt
  repeat rw [if_neg (by omega)]
  rw [dif_neg (by omega), dif_pos h]

theorem regAt_reserved {off : Offset} (h : (0x020 ≤ off.toNat ∧ off.toNat ≤ 0x03F) ∨ 0x094 ≤ off.toNat) :
    regAt off = .reserved := by
  unfold regAt
  repeat rw [if_neg (by omega)]
  rw [dif_neg (by omega), dif_neg (by omega)]

/-- The map read backwards: a register's offset selects it (10_state.md R23). -/
theorem regAt_offset (r : Reg) : regAt r.offset = r := by
  cases r with
  | keyw i => revert i; decide
  | dig i => revert i; decide
  | _ => decide

/-- Every register's offset is aligned. -/
theorem offset_aligned (r : Reg) : r.offset.toNat % 4 = 0 := by
  cases r with
  | keyw i => revert i; decide
  | dig i => revert i; decide
  | _ => decide

/-- The step of a well-formed read: its response, and nothing else. -/
theorem step_read (s : State) (m : Nat) {off : Offset} (h : off.toNat % 4 = 0) :
    step (s.facing (.bus (readAccess m off)))
      = .next (respond (readAccess m off) ⟨.okay, some (readReg s.toBlock (regAt off))⟩ s) := by
  have hw : (readAccess m off).wellFormed = true := wellFormed_iff.2 ⟨rfl, h⟩
  change busAccess (readAccess m off) s = _
  simp [busAccess, hw]

/-- The step of a well-formed write: the register's write, with its response. -/
theorem step_write (s : State) (m : Nat) {off : Offset} (v : Word) (h : off.toNat % 4 = 0) :
    step (s.facing (.bus (writeAccess m off v)))
      = onNext (respond (writeAccess m off v) ⟨.okay, none⟩) (writeReg (regAt off) v s) := by
  have hw : (writeAccess m off v).wellFormed = true := wellFormed_iff.2 ⟨rfl, h⟩
  change busAccess (writeAccess m off v) s = _
  simp [busAccess, hw]

/-- The step of any other access: the error response, and nothing else. -/
theorem step_illFormed (s : State) {a : Access} (h : a.wellFormed = false) :
    step (s.facing (.bus a)) = .next (respond a (busErrorResponse a) s) := by
  change busAccess a s = _
  simp [busAccess, h]

end Sys2Proof.Machine
end

