-- ==== Sys2Proof/Laws/Decode.lean ====
section
/-! SUPPORT. The fields of a command word as numbers, and what each outcome of the decoder says of them. -/

namespace Sys2Proof

theorem rsvField_toNat (w : Word) : (rsvField w).toNat = w.toNat / 16 := by
  have := w.isLt
  simp only [rsvField, BitVec.extractLsb'_toNat, Nat.shiftRight_eq_div_pow]
  omega

theorem opField_toNat (w : Word) : (opField w).toNat = w.toNat % 16 := by
  simp only [opField, BitVec.extractLsb'_toNat, Nat.shiftRight_eq_div_pow]
  omega

theorem rsvField_eq_zero {w : Word} : rsvField w = 0 ↔ w.toNat / 16 = 0 := by
  rw [← BitVec.toNat_inj, rsvField_toNat]
  simp

theorem opField_eq {w : Word} {n : BitVec 4} : opField w = n ↔ w.toNat % 16 = n.toNat := by
  rw [← BitVec.toNat_inj, opField_toNat]

/-- A word below 16 decodes by its `OP`, every other word is reserved (30_encoding.md R72). -/
theorem decode_of_lt {w : Word} (h : w.toNat < 16) :
    decode w = if w.toNat = 0 then .instr .nop else if w.toNat = 1 then .instr .hmac
      else if w.toNat = 2 then .instr .zeroize else .reserved .reservedOp := by
  have hr : rsvField w = 0 := rsvField_eq_zero.2 (by omega)
  have hm : w.toNat % 16 = w.toNat := by omega
  simp [decode, hr, opField_eq, hm]

theorem decode_of_ge {w : Word} (h : 16 ≤ w.toNat) : decode w = .reserved .reservedBits := by
  have hr : rsvField w ≠ 0 := fun h0 => by have := rsvField_eq_zero.1 h0; omega
  exact if_pos hr

end Sys2Proof
end

