-- ==== Sys2Proof/Laws/Step.lean ====
section
/-! SUPPORT. What a step can do, said once: the inversion of `step`, and each kind of event by itself. -/

namespace Sys2Proof.Machine

@[simp] theorem facing_inputs (s : State) (e : Event) : (s.facing e).inputs = e :: s.inputs := rfl
@[simp] theorem facing_toBlock (s : State) (e : Event) : (s.facing e).toBlock = s.toBlock := rfl

/-- The step of a state facing e performs e. -/
theorem step_facing (s : State) (e : Event) : step (s.facing e) = perform e s := rfl

/-- The engine's turn: completion while busy, nothing otherwise. -/
theorem engineTurn_cases {s t : State} (h : engineTurn s = .next t) :
    (s.status.busy = true ∧ ∃ d, s.pending = some d ∧ t = completeWith d s) ∨ (s.status.busy = false ∧ t = s) := by
  by_cases hb : s.status.busy = true
  · simp only [engineTurn, hb, if_true] at h
    split at h
    · cases h; exact .inl ⟨hb, _, ‹_›, rfl⟩
    · cases h
  · have hi : s.status.busy = false := by simpa using hb
    simp only [engineTurn, hi, Bool.false_eq_true, if_false] at h
    cases h
    exact .inr ⟨hi, rfl⟩

@[simp] theorem answerHeld_toBlock (held : List Access) (s : State) : (answerHeld held s).toBlock = s.toBlock := by
  induction held generalizing s with
  | nil => rfl
  | cons a rest ih => exact ih _

@[simp] theorem answerHeld_inputs (held : List Access) (s : State) : (answerHeld held s).inputs = s.inputs := by
  induction held generalizing s with
  | nil => rfl
  | cons a rest ih => exact ih _

/-- Reset leaves every register at its reset value, whatever accesses overlap it. -/
@[simp] theorem resetStep_toBlock (held : List Access) (s : State) : (resetStep held s).toBlock = Block.reset := by
  simp [resetStep]

@[simp] theorem resetStep_inputs (held : List Access) (s : State) : (resetStep held s).inputs = s.inputs := by
  simp [resetStep]

/-- What one event can do: an access that reaches the block, one that does not, the engine's turn, reset. -/
theorem perform_cases {e : Event} {s t : State} (h : perform e s = .next t) :
    (∃ a, e.access = some a ∧ busAccess a s = .next t)
    ∨ (∃ a, e = .mem a ∧ decodeAddress a = none ∧ t = s)
    ∨ (e = .engine ∧ engineTurn s = .next t)
    ∨ (∃ held, e = .reset held ∧ t = resetStep held s) := by
  cases e with
  | bus a => exact .inl ⟨a, rfl, h⟩
  | mem a =>
    cases hd : decodeAddress a with
    | some w => exact .inl ⟨w, hd, by simpa [perform, platformAccess, hd] using h⟩
    | none => exact .inr (.inl ⟨a, rfl, hd, by simpa [perform, platformAccess, hd] using h.symm⟩)
  | engine => exact .inr (.inr (.inl ⟨rfl, h⟩))
  | reset held =>
    simp only [perform, Host.Outcome.next.injEq] at h
    exact .inr (.inr (.inr ⟨held, rfl, h.symm⟩))

/-- A step performs the next event on the state with the rest of the events to come. -/
theorem step_eq_perform (s : State) : step s = perform s.nextEvent { s with inputs := s.inputs.tail } := by
  cases h : s.inputs with
  | nil =>
    have hs : ({ s with inputs := [] } : State) = s := by cases s; cases h; rfl
    simp [step, h, State.nextEvent, perform, hs]
  | cons e rest => simp [step, h, State.nextEvent]

/-- The inversion of `step`. -/
theorem step_cases {s t : State} (h : step s = .next t) :
    (∃ a, s.nextEvent.access = some a ∧ busAccess a { s with inputs := s.inputs.tail } = .next t)
    ∨ (∃ a, s.nextEvent = .mem a ∧ decodeAddress a = none ∧ t = { s with inputs := s.inputs.tail })
    ∨ (s.nextEvent = .engine ∧ engineTurn { s with inputs := s.inputs.tail } = .next t)
    ∨ (∃ held, s.nextEvent = .reset held ∧ t = resetStep held { s with inputs := s.inputs.tail }) := by
  rw [step_eq_perform] at h
  exact perform_cases h

/-- The event of s is a well-formed write of v to the register r. -/
def State.facesWrite (s : State) (r : Reg) (v : Word) : Prop :=
  ∃ a, s.nextEvent.access = some a ∧ a.wellFormed = true ∧ regAt a.off = r ∧ a.write = some v

/-- Every change a step can make to the registers, with what it takes. -/
inductive BlockStep (s : State) : Block → Prop
  | unchanged : BlockStep s s.toBlock
  | reset {held : List Access} (he : s.nextEvent = .reset held) : BlockStep s Block.reset
  | completed {d : Vector Word 5} (he : s.nextEvent = .engine) (hb : s.status.busy = true) (hp : s.pending = some d) :
      BlockStep s (completeWith d s).toBlock
  | lockedWrite {r : Reg} {v : Word} (hw : s.facesWrite r v) (hl : r.locked = true) (hb : s.status.busy = true) :
      BlockStep s (raiseError .errBusy s).toBlock
  | statusWrite {v : Word} (hw : s.facesWrite .status v) : BlockStep s (writeStatus v s).toBlock
  | irqEnWrite {v : Word} (hw : s.facesWrite .irqEn v) : BlockStep s (writeIrqEn v s).toBlock
  | reservedCommand {v : Word} {w : ReservedReason} (hw : s.facesWrite .cmd v) (hb : s.status.busy = false)
      (hd : decode v = .reserved w) : BlockStep s (raiseError .errCmd s).toBlock
  | hmacRejected {v : Word} (hw : s.facesWrite .cmd v) (hb : s.status.busy = false) (hd : decode v = .instr .hmac)
      (hk : Config.keyMax < s.keyLen.toNat) : BlockStep s (raiseError .errKeyLen s).toBlock
  | hmacAccepted {v : Word} (hw : s.facesWrite .cmd v) (hb : s.status.busy = false) (hd : decode v = .instr .hmac)
      (hk : s.keyLen.toNat ≤ Config.keyMax) : BlockStep s (acceptHmac s).toBlock
  | zeroized {v : Word} (hw : s.facesWrite .cmd v) (hb : s.status.busy = false) (hd : decode v = .instr .zeroize) :
      BlockStep s (zeroize s).toBlock
  | keyLenWrite {v : Word} (hw : s.facesWrite .keyLen v) (hb : s.status.busy = false) :
      BlockStep s { s.toBlock with keyLen := keyLenOfWord v }
  | msgHiWrite {v : Word} (hw : s.facesWrite .msgHi v) (hb : s.status.busy = false) :
      BlockStep s { s.toBlock with msgHi := v }
  | msgLoWrite {v : Word} (hw : s.facesWrite .msgLo v) (hb : s.status.busy = false) :
      BlockStep s { s.toBlock with msgLo := v }
  | keyWordWrite {v : Word} {i : Fin 16} (hw : s.facesWrite (.keyw i) v) (hb : s.status.busy = false) :
      BlockStep s { s.toBlock with keyw := s.keyw.set i v }

/-- A register write of the next event is one of the changes. -/
theorem blockStep_of_writeReg {s u : State} {r : Reg} {v : Word} (hw : s.facesWrite r v)
    (h : writeReg r v { s with inputs := s.inputs.tail } = .next u) : BlockStep s u.toBlock := by
  rcases writeReg_cases h with ⟨hb, hl, rfl⟩ | ⟨-, rfl | ⟨rfl, rfl⟩ | ⟨rfl, rfl⟩⟩ |
    ⟨hb, ⟨rfl, ⟨w, hd⟩, rfl⟩ | ⟨rfl, i, hd, he⟩ | ⟨rfl, rfl⟩ | ⟨rfl, rfl⟩ | ⟨rfl, rfl⟩ | ⟨i, rfl, rfl⟩⟩
  · exact .lockedWrite hw hl hb
  · exact .unchanged
  · exact .statusWrite hw
  · exact .irqEnWrite hw
  · exact .reservedCommand hw hb hd
  · rcases exec_cases he with ⟨hb', -⟩ | ⟨-, ⟨rfl, rfl⟩ | ⟨rfl, hk, rfl⟩ | ⟨rfl, hk, rfl⟩ | ⟨rfl, rfl⟩⟩
    · rw [hb] at hb'; cases hb'
    · exact .unchanged
    · exact .hmacRejected hw hb hd hk
    · exact .hmacAccepted hw hb hd hk
    · exact .zeroized hw hb hd
  · exact .keyLenWrite hw hb
  · exact .msgHiWrite hw hb
  · exact .msgLoWrite hw hb
  · exact .keyWordWrite hw hb

/-- What a step can do to the registers. Every whole-machine rule follows from it. -/
theorem step_blockStep {s t : State} (h : step s = .next t) : BlockStep s t.toBlock := by
  rcases step_cases h with ⟨a, ha, hb⟩ | ⟨a, -, -, rfl⟩ | ⟨he, ht⟩ | ⟨held, he, rfl⟩
  · rcases busAccess_cases hb with ⟨-, rfl⟩ | ⟨-, -, rfl⟩ | ⟨hw, v, u, hv, hu, rfl⟩
    · exact .unchanged
    · exact .unchanged
    · rw [respond_toBlock]
      exact blockStep_of_writeReg ⟨a, ha, hw, rfl, hv⟩ hu
  · exact .unchanged
  · rcases engineTurn_cases ht with ⟨hb, d, hp, rfl⟩ | ⟨-, rfl⟩
    · exact .completed he hb hp
    · exact .unchanged
  · rw [resetStep_toBlock]
    exact .reset he

end Sys2Proof.Machine
end

