-- ==== Sys2Proof/Laws/HostProgram.lean ====
section
/-! SUPPORT. Host programs: what the turns and the runs of a system can do, said once. -/

namespace Sys2Proof.Machine

@[simp] theorem mapNext_next {α β : Type} (f : α → β) (s : α) : mapNext f (.next s) = .next (f s) := rfl

/-- The inversion of `mapNext`. -/
theorem mapNext_eq_next {α β : Type} {f : α → β} {o : Host.Outcome α Fault Refusal} {u : β} (h : mapNext f o = .next u) :
    ∃ s, o = .next s ∧ u = f s := by
  cases o with
  | next s => cases h; exact ⟨s, rfl, rfl⟩
  | fault r => cases h
  | refused r => cases h

@[simp] theorem fail_todo (e : HostError) (h : HostProcess) : (h.fail e).todo = [] := rfl
@[simp] theorem fail_failed (e : HostError) (h : HostProcess) : (h.fail e).failed = some e := rfl
@[simp] theorem fail_master (e : HostError) (h : HostProcess) : (h.fail e).master = h.master := rfl
@[simp] theorem fail_outcome (e : HostError) (h : HostProcess) : (h.fail e).outcome = some (.error e) := rfl
@[simp] theorem fail_code (e : HostError) (h : HostProcess) : (h.fail e).code = some (.error e) := rfl

/-- What a program's next transaction changes in the note of error responses: nothing. -/
@[simp] theorem receive_errorHeld (x : Word) (h : HostProcess) : (h.receive x).errorHeld = h.errorHeld := by
  unfold HostProcess.receive
  split <;> first | rfl | (split <;> rfl)

/-- An OKAY answer is what was read, and nothing more. -/
theorem answered_okay (x : Option Word) (h : HostProcess) : h.answered ⟨.okay, x⟩ = h.receive (x.getD 0) := by
  have he := receive_errorHeld (x.getD 0) h
  unfold HostProcess.answered
  generalize h.receive (x.getD 0) = g at he ⊢
  simp [← he]

/-- A program that has ended makes no access. -/
theorem nextAccess_of_ended {h : HostProcess} (ht : h.todo = []) : h.nextAccess = none := by
  simp [HostProcess.nextAccess, ht]

/-- A program that has ended has made its last access. -/
theorem madeLastAccess_of_ended {h : HostProcess} (ht : h.todo = []) : h.madeLastAccess = true := by
  simp [HostProcess.madeLastAccess, ht]

/-- A program that has made its last access is about to make none. -/
theorem nextAccess_of_madeLastAccess {h : HostProcess} (hl : h.madeLastAccess = true) : h.nextAccess = none := by
  cases ht : h.todo with
  | nil => exact nextAccess_of_ended ht
  | cons op rest =>
    simp only [HostProcess.madeLastAccess, ht, List.all_cons, Bool.and_eq_true, Option.isNone_iff_eq_none] at hl
    simp [HostProcess.nextAccess, ht, hl.1]

/-- When the run of a host program is over. -/
theorem system_runOver_iff {σ : System} :
    σ.runOver = true ↔ σ.machine.status.busy = false ∧ ∀ op ∈ σ.host.todo, op.access σ.host.master = none := by
  simp [System.runOver, HostProcess.madeLastAccess, and_comm]

/-- One turn: the block performs one event, and the host is told its response or nothing; or the host alone moves. -/
theorem turn_cases {tn : Turn} {σ τ : System} (h : σ.turn tn = .next τ) :
    (∃ a e, σ.host.nextAccess = some a ∧ (e = .bus a ∨ e = .reset [a]) ∧ perform e σ.machine = .next τ.machine
        ∧ τ.host = (τ.machine.log.head?.map Prod.snd).elim σ.host σ.host.answered)
    ∨ (∃ e, perform e σ.machine = .next τ.machine ∧ τ.host = σ.host)
    ∨ (τ.machine = σ.machine
        ∧ (τ.host = σ.host.observeIrq σ.machine.irq ∨ τ.host = σ.host.takeBusError)) := by
  cases tn with
  | host =>
    simp only [System.turn] at h
    split at h
    · obtain ⟨t, ht, rfl⟩ := mapNext_eq_next h
      exact .inl ⟨_, _, ‹_›, .inl rfl, ht, rfl⟩
    · cases h
      exact .inr (.inr ⟨rfl, .inl rfl⟩)
  | hostInReset =>
    simp only [System.turn] at h
    split at h
    · obtain ⟨t, ht, rfl⟩ := mapNext_eq_next h
      exact .inl ⟨_, _, ‹_›, .inr rfl, ht, rfl⟩
    · obtain ⟨t, ht, rfl⟩ := mapNext_eq_next h
      exact .inr (.inl ⟨_, ht, rfl⟩)
  | other e =>
    obtain ⟨t, ht, rfl⟩ := mapNext_eq_next h
    exact .inr (.inl ⟨e, ht, rfl⟩)
  | takeBusError =>
    cases h
    exact .inr (.inr ⟨rfl, .inr rfl⟩)

/-- A host turn whose access the block answers with r: the host gets r. -/
theorem turn_host {σ : System} {a : Access} {r : Response} {u : State} (ha : σ.host.nextAccess = some a)
    (hp : perform (.bus a) σ.machine = .next (respond a r u)) :
    σ.turn .host = .next ⟨respond a r u, σ.host.answered r⟩ := by
  simp only [System.turn, ha, System.exchange]
  rw [hp]
  rfl

/-- A program that has failed stays as it is, whatever happens. -/
theorem turn_of_failed {tn : Turn} {σ τ : System} {e : HostError} (ht : σ.host.todo = [])
    (hf : σ.host.failed = some e) (h : σ.turn tn = .next τ) : τ.host = σ.host := by
  rcases turn_cases h with ⟨a, _, ha, -⟩ | ⟨_, -, hh⟩ | ⟨-, hh | hh⟩
  · rw [nextAccess_of_ended ht] at ha; cases ha
  · exact hh
  · simp [hh, HostProcess.observeIrq, ht]
  · simp [hh, HostProcess.takeBusError, hf]

/-- A run whose first turn answers τ goes on from τ. -/
theorem run_turn {tn : Turn} {rest : List Turn} {σ τ : System} (h : σ.turn tn = .next τ) :
    σ.run (tn :: rest) = τ.run rest := by
  simp [System.run, h]

/-- The inversion of a run of at least one turn. -/
theorem run_cons_eq_next {tn : Turn} {rest : List Turn} {σ υ : System} (h : σ.run (tn :: rest) = .next υ) :
    ∃ τ, σ.turn tn = .next τ ∧ τ.run rest = .next υ := by
  simp only [System.run] at h
  split at h
  · exact ⟨_, ‹_›, h⟩
  · cases h
  · cases h

/-- A run of turns that answers τ goes on from τ. -/
theorem run_turns_append {as bs : List Turn} {σ τ : System} (h : σ.run as = .next τ) : σ.run (as ++ bs) = τ.run bs := by
  induction as generalizing σ with
  | nil => cases h; rfl
  | cons tn rest ih =>
    obtain ⟨ρ, hρ, hr⟩ := run_cons_eq_next h
    rw [List.cons_append, run_turn hρ, ih hr]

/-- A program that has failed stays as it is over a whole run. -/
theorem run_of_failed {turns : List Turn} {σ υ : System} {e : HostError} (ht : σ.host.todo = [])
    (hf : σ.host.failed = some e) (h : σ.run turns = .next υ) : υ.host = σ.host := by
  induction turns generalizing σ with
  | nil => cases h; rfl
  | cons tn rest ih =>
    obtain ⟨τ, hτ, hr⟩ := run_cons_eq_next h
    have hh := turn_of_failed ht hf hτ
    rw [ih (by rw [hh, ht]) (by rw [hh, hf]) hr, hh]

end Sys2Proof.Machine
end

