-- ==== Sys2Proof/Laws/PerInstr.lean ====
section
/-! SUPPORT. Facts of every command as syntax, one lemma per command. -/

namespace Sys2Proof.Laws.TableRow

/-- The command's word is the word of its row of the opcode map (30_encoding.md R71): under the row's mask it is the row's
match, and its reserved field is 0 (R70). -/
def Statement (i : Instr) : Prop :=
  i.wellFormed = true ∧ encode i &&& rowMask i = rowMatch i ∧ rsvField (encode i) = 0 ∧ opField (encode i) = opcode i

theorem nop : Statement .nop := by unfold Statement; decide

theorem hmac : Statement .hmac := by unfold Statement; decide

theorem zeroize : Statement .zeroize := by unfold Statement; decide

end Sys2Proof.Laws.TableRow
end

