-- ==== Sys2Proof/Laws/Run.lean ====
section
/-! SUPPORT. Runs of several steps: a run is its first step and the rest, and a run of a sum of steps is two runs. -/

namespace Sys2Proof.Machine

/-- A run whose next event answers u goes on from u. -/
theorem run_event {e : Event} {es : List Event} {s u : State} (n : Nat)
    (h : perform e { s with inputs := es } = .next u) :
    Host.Core.run Sys2Proof.core (n + 1) { s with inputs := e :: es } = Host.Core.run Sys2Proof.core n u := by
  have hs : Sys2Proof.core.step ({ s with inputs := e :: es } : State) = .next u := h
  simp only [Host.Core.run, hs]

/-- A run of m steps that answers u goes on from u. -/
theorem run_add {m : Nat} {s u : State} (n : Nat) (h : Host.Core.run Sys2Proof.core m s = .next u) :
    Host.Core.run Sys2Proof.core (m + n) s = Host.Core.run Sys2Proof.core n u := by
  induction m generalizing s with
  | zero => cases h; rw [Nat.zero_add]
  | succ m ih =>
    rw [Nat.succ_add]
    simp only [Host.Core.run] at h ⊢
    split at h
    · exact ih h
    · cases h
    · cases h

/-- `WR` of a register is its register write, answered OKAY. -/
theorem perform_wr (m : Nat) (r : Reg) (v : Word) (s : State) :
    perform (wr m r v) s = onNext (respond (writeAccess m r.offset v) ⟨.okay, none⟩) (writeReg r v s) := by
  have h := step_write s m v (offset_aligned r)
  rwa [regAt_offset] at h

/-- `RD` of a register answers its word and changes nothing. -/
theorem perform_rd (m : Nat) (r : Reg) (s : State) :
    perform (rd m r) s = .next (respond (readAccess m r.offset) ⟨.okay, some (readReg s.toBlock r)⟩ s) := by
  have h := step_read s m (offset_aligned r)
  rwa [regAt_offset] at h

end Sys2Proof.Machine
end

