-- ==== Sys2Proof/Laws/Sha1.lean ====
section
/-! SUPPORT. Lengths of the byte strings of SHA-1 and HMAC, and bytes and words as inverses. -/

namespace Sys2Proof.Machine

@[simp] theorem bytesOf_length (w : Word) : (bytesOf w).length = 4 := rfl

@[simp] theorem bytesOf64_length (x : BitVec 64) : (bytesOf64 x).length = 8 := rfl

@[simp] theorem Chain_bytes_length (h : Chain) : h.bytes.length = 20 := rfl

/-- "The digest is always 20 bytes" (42_sha1_hmac.md R162). -/
@[simp] theorem sha1_length (m : List Byte) : (sha1 m).length = 20 := rfl

@[simp] theorem hmacSha1_length (k m : List Byte) : (hmacSha1 k m).length = 20 := rfl

/-- Bit i of byte j, counted from the lowest byte, of a word of four bytes. -/
theorem wordOf_getLsbD (b0 b1 b2 b3 : Byte) {i j : Nat} (hi : i < 8) (hj : j < 4) :
    (wordOf b0 b1 b2 b3).getLsbD (8 * j + i) = ([b3, b2, b1, b0].getD j 0).getLsbD i := by
  unfold wordOf
  rw [BitVec.getLsbD_append, BitVec.getLsbD_append, BitVec.getLsbD_append]
  match j, hj with
  | 0, _ => simp [hi]
  | 1, _ => simp [show ¬ (8 * 1 + i < 8) by omega, hi]
  | 2, _ =>
    simp [show ¬ (8 * 2 + i < 8) by omega, show ¬ (8 * 2 + i - 8 < 8) by omega, hi,
      show 8 * 2 + i - 8 - 8 = i by omega]
  | 3, _ =>
    simp [show ¬ (8 * 3 + i < 8) by omega, show ¬ (8 * 3 + i - 8 < 8) by omega,
      show ¬ (8 * 3 + i - 8 - 8 < 8) by omega, show 8 * 3 + i - 8 - 8 - 8 = i by omega]

/-- The bytes of a word of four bytes are those bytes. -/
@[simp] theorem bytesOf_wordOf (b0 b1 b2 b3 : Byte) : bytesOf (wordOf b0 b1 b2 b3) = [b0, b1, b2, b3] := by
  simp only [bytesOf, List.cons.injEq, and_true]
  refine ⟨?_, ?_, ?_, ?_⟩ <;> ext i hi
  · simpa [hi] using wordOf_getLsbD b0 b1 b2 b3 hi (j := 3) (by decide)
  · simpa [hi] using wordOf_getLsbD b0 b1 b2 b3 hi (j := 2) (by decide)
  · simpa [hi] using wordOf_getLsbD b0 b1 b2 b3 hi (j := 1) (by decide)
  · simpa [hi] using wordOf_getLsbD b0 b1 b2 b3 hi (j := 0) (by decide)

/-- The padded key is one block (42_sha1_hmac.md R158). -/
theorem padKey_length {k : List Byte} (h : k.length ≤ 64) : (padKey k).length = 64 := by
  simp only [padKey, Config.blockBytes, List.length_append, List.length_replicate]
  omega

theorem innerKey_length {k : List Byte} (h : k.length ≤ 64) : (innerKey k).length = 64 := by
  simpa [innerKey] using padKey_length h

theorem outerKey_length {k : List Byte} (h : k.length ≤ 64) : (outerKey k).length = 64 := by
  simpa [outerKey] using padKey_length h

@[simp] theorem message_length (b : Block) : b.message.length = 8 := rfl

/-- One word per four bytes. -/
theorem wordsOf_length (p : List Byte) : (wordsOf p).length = p.length / 4 := by
  induction p using wordsOf.induct with
  | case1 b0 b1 b2 b3 rest ih => simp only [wordsOf, List.length_cons, ih]; omega
  | case2 p h =>
    match p, h with
    | [], _ => rfl
    | [_], _ => simp [wordsOf]
    | [_, _], _ => simp [wordsOf]
    | [_, _, _], _ => simp [wordsOf]
    | b0 :: b1 :: b2 :: b3 :: rest, h => exact absurd rfl (h b0 b1 b2 b3 rest)

theorem extendSchedule_length (n : Nat) (w : List Word) : (extendSchedule n w).length = n + w.length := by
  induction n generalizing w with
  | zero => simp [extendSchedule]
  | succ n ih => simp only [extendSchedule, ih, List.length_cons]; omega

/-- Extending a schedule keeps the words it has. -/
theorem extendSchedule_getD (n : Nat) (w : List Word) (j : Nat) : (extendSchedule n w).getD (n + j) 0 = w.getD j 0 := by
  induction n generalizing w j with
  | zero => simp [extendSchedule]
  | succ n ih =>
    rw [extendSchedule, show n + 1 + j = n + (j + 1) by omega, ih]
    simp

end Sys2Proof.Machine
end

