-- ==== Sys2Proof/Tests/Slice0.lean ====
section
/-! SUPPORT. Tests of the model's own author, each expected value from spec/ (95_test_vectors.md unless said), and for every
obligation with hypotheses a state and operands that meet them all together. -/

namespace Sys2Proof.Tests

open Sys2Proof.Machine

/-! ## States and readings the tests share -/

/-- Row H5 of 95_test_vectors.md: the key "abc" with every byte beyond it 0xFF, the message 0, idle. -/
def keyed : State :=
  { State.reset with keyLen := 3, keyw := (Vector.replicate 16 0xFFFFFFFF).set 0 0x616263FF }

/-- `keyed` with its HMAC command accepted. -/
def running : State := acceptHmac keyed

/-- An idle state with a digest, every sticky bit and both enables set. -/
def flagged : State :=
  { State.reset with
    status := ⟨false, true, true, true, true⟩, irqEn := ⟨true, true⟩, dig := #v[0x11, 0x22, 0x33, 0x44, 0x55] }

/-- A busy state whose pending digest is a literal, for tests that compare whole blocks. -/
def pendingLiteral : State :=
  { flagged with status := ⟨true, false, false, false, false⟩, pending := some flagged.dig }

/-- Whether an outcome is a next state of which p holds. -/
def next (p : State → Bool) : Host.Outcome State Fault Refusal → Bool
  | .next t => p t
  | .fault _ => false
  | .refused _ => false

/-- The step of s facing a write by master 0. -/
def wrote (s : State) (off : Offset) (v : Word) : Host.Outcome State Fault Refusal :=
  step (s.facing (.bus (writeAccess 0 off v)))

/-- The data a read by master 0 is answered with, where the answer is OKAY. -/
def readWord (s : State) (off : Offset) : Option Word :=
  match step (s.facing (.bus (readAccess 0 off))) with
  | .next t => t.lastResponse.bind fun r => if r.status = .okay then r.data else none
  | _ => none

/-- How `BlockMac` of the empty key and the counter 0 stands after some turns from reset; none where the machine stops. -/
def hostOutcome (turns : List Turn) : Option (Option (Except HostError (List Byte))) :=
  match System.run turns ⟨State.reset, blockMacHost 0 [] 0⟩ with
  | .next σ => some σ.host.outcome
  | _ => none

/-! ## Well-formedness: an ill-formed term for each check -/

theorem test_width_check_refuses_halfword : (⟨0, 0x004, 2, some 1⟩ : Access).wellFormed = false := by decide
theorem test_alignment_check_refuses_0x042 : (⟨0, 0x042, 4, some 0⟩ : Access).wellFormed = false := by decide
theorem test_aligned_word_is_well_formed : (writeAccess 0 0xFFC 0).wellFormed = true := by decide

/-! ## Decoding: words written out from 30_encoding.md R70 and R71 -/

theorem test_decode_nop : decode 0b00000000000000000000000000000000 = .instr .nop := by decide
theorem test_decode_hmac : decode 0b00000000000000000000000000000001 = .instr .hmac := by decide
theorem test_decode_zeroize : decode 0b00000000000000000000000000000010 = .instr .zeroize := by decide
theorem test_decode_reserved_op : decode 0x00000003 = .reserved .reservedOp := by decide
theorem test_decode_reserved_bits : decode 0x00000011 = .reserved .reservedBits := by decide
theorem test_decodeTableWord : [0, 1, 2, 3].map (decodeTableWord 32) = [some .nop, some .hmac, some .zeroize, none] := by
  decide

/-! ## Commands (95_test_vectors.md section 3) -/

/-- B1. -/
theorem test_nop_changes_nothing : next (· == State.reset) (exec .nop State.reset) = true := by decide
/-- B6, on the reset state's own first instruction. -/
theorem test_hmac_after_reset_sets_errKeyLen :
    next (fun t => t.status == ⟨false, false, false, true, false⟩ && t.toBlock.dig == Block.reset.dig)
      (step (State.reset.withFetchWord 32 1)) = true := by decide
/-- B11: acceptance clears DONE and DIG and sets BUSY. -/
theorem test_hmac_acceptance :
    next (fun t => t.status == ⟨true, false, true, true, true⟩ && t.dig == Vector.replicate 5 0)
      (wrote { flagged with keyLen := 20 } 0x004 1) = true := by decide
/-- B14. -/
theorem test_zeroize_wipes :
    next (fun t => t.keyw == Vector.replicate 16 0 && t.keyLen == 127 && t.dig == Vector.replicate 5 0 && t.status.done)
      (wrote { keyed with dig := flagged.dig } 0x004 2) = true := by decide
/-- B2 and B7: a reserved word sets ERR_CMD when idle and ERR_BUSY only when busy. -/
theorem test_reserved_command :
    next (fun t => t.status.toWord == 0x04) (wrote keyed 0x004 3) = true
      ∧ next (fun t => t.status.toWord == 0x11) (wrote running 0x004 3) = true := by decide

/-! ## Registers (95_test_vectors.md section 2) -/

/-- A9 to A11: no silent truncation of a key length. -/
theorem test_keyLen_write :
    [0, 64, 65, 128, 0xFFFFFFFF, 148].map (fun v => next (fun t => t.keyLen == 127) (wrote State.reset 0x010 v))
      = [false, false, true, true, true, true] := by decide
/-- A21. -/
theorem test_status_w1c : next (fun t => t.status.toWord == 0x14) (wrote flagged 0x008 0x0000000A) = true := by decide
/-- A23. -/
theorem test_key_word_write_while_busy :
    next (fun t => t.status.errBusy && t.keyw == running.keyw) (wrote running 0x04C 7) = true := by decide
/-- A18 and A19: the error response, data 0 for a read, no change. -/
theorem test_bus_error :
    next (fun t => t.toBlock == flagged.toBlock && t.lastResponse == some ⟨.busError 0x000, some 0⟩)
      (step (flagged.facing (.bus ⟨0, 0x000, 1, none⟩))) = true := by decide
/-- The map of 40_bus_access.md R100 where its ranges meet. -/
theorem test_reads_where_ranges_meet :
    [0x000, 0x004, 0x008, 0x00C, 0x010, 0x014, 0x018, 0x01C, 0x020, 0x03C].map (readWord flagged)
        = [some 0x484D4131, some 0, some 0x1E, some 3, some 127, some 0, some 0, some 0, some 0, some 0]
      ∧ [0x040, 0x07C, 0x080, 0x084, 0x088, 0x08C, 0x090, 0x094, 0xFFC].map (readWord flagged)
        = [some 0, some 0, some 0x11, some 0x22, some 0x33, some 0x44, some 0x55, some 0, some 0] := by decide
/-- B15 to B17. -/
theorem test_irq :
    (completeWith flagged.dig { running with irqEn := ⟨true, false⟩ }).irq = true
      ∧ ({ State.reset with irqEn := ⟨false, true⟩, status := ⟨false, false, true, false, false⟩ } : State).irq = true
      ∧ next (fun t => !t.irq)
          (wrote { State.reset with irqEn := ⟨true, false⟩, status := ⟨false, true, false, false, false⟩ } 0x008 2) = true := by
  decide

/-! ## SHA-1 and HMAC (95_test_vectors.md section 4) -/

/-- S1. -/
theorem test_sha1_abc :
    digestWords (sha1 [0x61, 0x62, 0x63]) = #v[0xa9993e36, 0x4706816a, 0xba3e2571, 0x7850c26c, 0x9cd0d89d] := by
  decide +kernel
/-- S2. -/
theorem test_sha1_empty : digestWords (sha1 []) = #v[0xda39a3ee, 0x5e6b4b0d, 0x3255bfef, 0x95601890, 0xafd80709] := by
  decide +kernel
/-- H5: bytes at and beyond the key length are masked. -/
theorem test_hmac_masks_the_key :
    keyed.hmacDigest = #v[0x0c582ae2, 0xa777db4b, 0x70bd9d46, 0x65e73153, 0x44829106] := by decide +kernel
/-- H4: a full block of key. -/
theorem test_hmac_full_block_key :
    digestWords (hmacSha1 ((List.range 64).map (BitVec.ofNat 8)) (bytesOf64 0x0001020304050607))
      = #v[0x37fc0156, 0xeaddaf7e, 0xfe823e0f, 0xd12979b6, 0x4ae10935] := by decide +kernel

/-! ## Host reference (95_test_vectors.md section 5) -/

/-- E1: leftover bits ignored; the digit 1, a lowercase letter, seven '=' and an inner '=' refused. -/
theorem test_base32 :
    (base32Decode ['M', 'Z', 'X', 'W', '6', 'Y', 'R', '=']).toOption = some [102, 111, 111, 98]
      ∧ base32Valid ['G', 'E', 'Z', 'D', 'G', 'N', 'B', '1'] = false
      ∧ base32Valid ['g', 'e', 'z', 'd', 'g', 'n', 'b', 'v'] = false
      ∧ base32Valid ['M', '=', '=', '=', '=', '=', '=', '='] = false
      ∧ base32Valid ['M', 'Z', '=', 'X', 'W', '6', 'Y', 'Q'] = false := by decide
/-- V2, and the last interval of E2. -/
theorem test_interval :
    (interval (.seconds (29999 / 1000))).toOption = some 0 ∧ (interval (.seconds 30)).toOption = some 1
      ∧ (interval (.seconds (30 * 2 ^ 64 - 1))).toOption = some 0xFFFFFFFFFFFFFFFF
      ∧ (interval (.seconds (30 * 2 ^ 64))).toOption = none ∧ (interval (.seconds (-1))).toOption = none := by
  decide +kernel
/-- V1 from the digest on, and the two leading zeros of E2 (counter 41152263). -/
theorem test_truncate_and_fold :
    fold (truncate (([0x75A48A19, 0xD4CBE100, 0x644E8AC1, 0x397EEA74, 0x7A2D33AB] : List Word).flatMap bytesOf))
        = ['2', '8', '7', '0', '8', '2']
      ∧ fold (truncate (([0x907cd1a9, 0x116564ec, 0xb9d5d178, 0x0325f246, 0x173fe703] : List Word).flatMap bytesOf))
        = ['0', '0', '5', '9', '2', '4'] := by decide +kernel

/-- R186 under a reset after the command, which abandons it: a failure, never a code; and under a schedule that ends before
the completion: still polling. -/
theorem test_blockMac_fails_after_a_reset :
    hostOutcome (List.replicate 6 .host ++ [.other (.reset []), .host, .host]) = some (some (.error .macFailed))
      ∧ hostOutcome (List.replicate 9 .host) = some none := by decide +kernel
/-- R186 with the empty key and the counter 0: the digest of row H2. -/
theorem test_blockMac_reads_the_digest :
    hostOutcome (List.replicate 6 .host ++ [.other .engine] ++ List.replicate 9 .host)
      = some (some (.ok (([0xDAB69AD9, 0x8E28764F, 0x977EE248, 0x7E4F3F68, 0x73B2A297] : List Word).flatMap bytesOf))) := by
  decide +kernel
/-- R180: the digit 1 in the secret, and a negative timestamp, surface before any access. -/
theorem test_generateCode_surfaces_refusals :
    (codeHost 0 ['G', 'E', 'Z', 'D', 'G', 'N', 'B', '1'] none (.seconds 0)).code = some (.error .decodeError)
      ∧ (codeHost 0 [] (some (.seconds (-1))) (.seconds 0)).code = some (.error .badTimestamp)
      ∧ (codeHost 0 [] (some (.seconds (-1))) (.seconds 0)).nextAccess = none := by decide +kernel
/-- R246: over with another master's access and a reset still to come; not over while busy or before the last access; and the
result of master 0 alone. -/
theorem test_run_over :
    ({ keyed with inputs := [.engine, .bus (readAccess 1 0x008), .reset []] } : State).runOver 0 = true
      ∧ running.runOver 0 = false ∧ (keyed.facing (.bus (readAccess 0 0x008))).runOver 0 = false
      ∧ ({ keyed with log := [(readAccess 1 0x000, ⟨.okay, some 7⟩), (writeAccess 0 0x002 5, ⟨.busError 0x002, none⟩),
            (readAccess 0 0x008, ⟨.okay, some 9⟩)] } : State).runResult 0
        = ⟨[9], keyed.toBlock, [.okay, .busError 0x002]⟩ := by decide +kernel

/-- R246 for a program under way: over with only a wait for `irq` left; not over while busy or with an access after the wait. -/
theorem test_system_run_over :
    (⟨keyed, .start 0 [.waitIrq]⟩ : System).runOver = true ∧ (⟨running, .start 0 [.waitIrq]⟩ : System).runOver = false
      ∧ (⟨keyed, .start 0 [.waitIrq, .rd 0x080]⟩ : System).runOver = false := by decide

/-! ## Witnesses: for each obligation with hypotheses, a state and operands that meet them -/

theorem witness_NopChangesNothingUnlessBusy : keyed.status.busy = false ∧ running.status.busy = true := by decide

/-- Each clause; the largest and the smallest length that is accepted. -/
theorem witness_HmacFixesTheDigestOrSetsOneErrorBit :
    ∃ s u : State, (s.status.busy = false ∧ s.keyLen.toNat = 64) ∧ (u.status.busy = false ∧ u.keyLen.toNat = 0)
      ∧ running.status.busy = true ∧ State.reset.status.busy = false ∧ 64 < State.reset.keyLen.toNat :=
  ⟨{ keyed with keyLen := 64 }, { keyed with keyLen := 0 }, by decide⟩

theorem witness_ZeroizeWipesUnlessBusy : running.status.busy = true ∧ keyed.status.busy = false := by decide

/-- Two states that differ in a key byte beyond the length, in the flags and in the digest. -/
theorem witness_DigestDependsOnOperandsOnly :
    ∃ s u : State, s ≠ u ∧ s.status.busy = false ∧ u.status.busy = false ∧ s.keyLen.toNat ≤ 64 ∧ u.keyLen = s.keyLen
      ∧ (∀ j, j < s.keyLen.toNat → s.keyBuffer[j]? = u.keyBuffer[j]?) ∧ u.msgHi = s.msgHi ∧ u.msgLo = s.msgLo :=
  ⟨keyed, { flagged with keyLen := 3, keyw := (Vector.replicate 16 0).set 0 0x61626300 }, by decide⟩

/-- Each clause of the command write, at the values where they meet: 2 and 3, and the lengths 64 and 127. -/
theorem witness_CommandWriteChecksInOrder :
    running.status.busy = true ∧ (keyed.status.busy = false ∧ 3 ≤ (3 : Word).toNat)
      ∧ (State.reset.status.busy = false ∧ 64 < State.reset.keyLen.toNat)
      ∧ (({ keyed with keyLen := 64 } : State).status.busy = false ∧ ({ keyed with keyLen := 64 } : State).keyLen.toNat ≤ 64) := by
  decide

theorem witness_StepRunsTheDecodedCommand :
    decode 0 = .instr .nop ∧ decode 1 = .instr .hmac ∧ decode 2 = .instr .zeroize := by decide

/-- The rounds where the four ranges meet. -/
theorem witness_RoundFunctionsAndConstants :
    [0, 19, 20, 39, 40, 59, 60, 79].map roundConstant = [0x5A827999, 0x5A827999, 0x6ED9EBA1, 0x6ED9EBA1, 0x8F1BBCDC,
      0x8F1BBCDC, 0xCA62C1D6, 0xCA62C1D6] := by decide

theorem witness_PaddingFillsWholeBlocks : ∃ m : List Byte, 8 * m.length < 2 ^ 64 ∧ 0 < m.length :=
  ⟨[0x61, 0x62, 0x63], by decide⟩

/-- Sixteen words, and an index of each clause where they meet: 15 and 16, and the last, 79. -/
theorem witness_ScheduleFollowsItsRecurrence :
    ∃ m : List Word, m.length = 16 ∧ 15 < 16 ∧ 16 ≤ 16 ∧ 79 < 80 := ⟨List.replicate 16 1, by decide⟩

theorem witness_CompressRunsEightyRounds : ∃ blk : List Byte, blk.length = 64 ∧ 79 < 80 :=
  ⟨List.replicate 64 0x36, by decide⟩

/-- The empty key and a full one. -/
theorem witness_HmacIsFourCompressions :
    ∃ k l m : List Byte, k.length = 0 ∧ l.length = 64 ∧ k.length ≤ 64 ∧ l.length ≤ 64 ∧ m.length = 8 :=
  ⟨[], List.replicate 64 1, List.replicate 8 0, by decide⟩

theorem witness_ZeroBytesAppendedToKeyChangeNothing : ∃ (k : List Byte) (z : Nat), 0 < z ∧ k.length + z = 64 :=
  ⟨[0x61, 0x62, 0x63], 61, by decide⟩

theorem witness_KeyBytesAreBigEndianBytesOfKeyWords : keyed.keyBytes 3 = [0x61, 0x62, 0x63] ∧ 63 < 64 ∧ 64 ≤ 64 := by
  decide

theorem witness_DigestWordsHoldTheDigestBytes : ∃ d : List Byte, d.length = 20 := ⟨sha1 [], rfl⟩

/-- An offset of each clause, the ends of each range included; no offset falls under two clauses. -/
theorem witness_ReadsAnswerTheRegisterMap :
    [0x000, 0x004, 0x008, 0x00C, 0x010, 0x014, 0x018, 0x01C, 0x020, 0x03C, 0x040, 0x07C, 0x080, 0x090, 0x094,
      (0xFFC : Offset)].all (fun off => off.toNat % 4 == 0) = true ∧ (0x090 : Offset).toNat = 0x080 + 4 * 4 := by decide

theorem witness_FlagWordsHoldTheFlagsBitByBit :
    flagged.status.toWord = 0x1E ∧ flagged.irqEn.toWord = 3 ∧ flagged.status.toWord.getLsbD 5 = false := by decide

/-- Both sides of the length 64, idle and busy. -/
theorem witness_KeyLenWriteStoresALegalLength :
    running.status.busy = true ∧ keyed.status.busy = false ∧ (64 : Word).toNat ≤ 64 ∧ 64 < (65 : Word).toNat := by decide

theorem witness_MessageWriteStoresTheWord : running.status.busy = true ∧ keyed.status.busy = false := by decide

theorem witness_KeyWordWriteStoresOneWord :
    running.status.busy = true ∧ keyed.status.busy = false ∧ (14 : Fin 16) ≠ 15 := by decide

/-- The ends of each range of ignored offsets. -/
theorem witness_IgnoredOffsetsTakeNoWrite :
    ([0x000, 0x014, 0x020, 0x03C, 0x080, 0x090, 0x094, 0xFFC] : List Offset).all
      (fun off => next (fun t => t.toBlock == pendingLiteral.toBlock) (wrote pendingLiteral off 0xFFFFFFFF)) = true := by
  decide

/-- The locked offsets, the ends of the key words included, and the first offsets beside them that are not locked. -/
theorem witness_LockedWriteWhileBusySetsOnlyErrBusy :
    running.status.busy = true
      ∧ ([0x004, 0x010, 0x018, 0x01C, 0x040, 0x07C, 0x000, 0x03C, 0x080] : List Offset).all (fun off => off.toNat % 4 == 0) = true := by
  decide

theorem witness_WritesOtherThanCommandsAreIdempotent : (0x008 : Offset) ≠ 0x004 ∧ (0x000 : Offset) ≠ 0x004 := by decide

theorem witness_IrqEnWriteKeepsTheTwoLowBits : (1 : Word).getLsbD 0 = true ∧ flagged.status.done = true := by decide

/-- "abc": one block, of sixteen words. -/
theorem witness_Sha1FoldsTheBlocksOfThePaddedMessage :
    ∃ (m : List Byte) (blks : List (List Byte)), pad m = blks.flatten ∧ (∀ b ∈ blks, b.length = 64) ∧ blks ≠ [] :=
  ⟨[0x61, 0x62, 0x63], [pad [0x61, 0x62, 0x63]], by decide⟩

theorem witness_WordsAreBigEndianAndRotl : (0 < 1 ∧ 1 < 32) ∧ (0 < 31 ∧ 31 < 32) := by decide

/-- Each disjunct alone: another width at an aligned offset, a word at an unaligned one. -/
theorem witness_OtherAccessesGetABusErrorOnly :
    ∃ a b : Access, (a.bytes ≠ 4 ∧ a.off.toNat % 4 = 0) ∧ (b.bytes = 4 ∧ b.off.toNat % 4 ≠ 0) :=
  ⟨⟨0, 0x004, 2, some 1⟩, ⟨0, 0x042, 4, some 0⟩, by decide⟩

/-- An access of each case of the priority. -/
theorem witness_EachAccessRaisesAtMostItsFirstError :
    accessError ⟨0, 0x004, 2, some 3⟩ running.toBlock = some .busError
      ∧ accessError (writeAccess 0 0x004 3) running.toBlock = some .errBusy
      ∧ accessError (writeAccess 0 0x004 3) State.reset.toBlock = some .errCmd
      ∧ accessError (writeAccess 0 0x004 1) State.reset.toBlock = some .errKeyLen
      ∧ accessError (writeAccess 0 0x004 1) keyed.toBlock = none := by decide

/-- One W1C write clears all three error bits; so does a reset. -/
theorem witness_ErrorBitsAreSticky :
    flagged.status.errCmd = true ∧ flagged.status.errKeyLen = true ∧ flagged.status.errBusy = true
      ∧ next (fun t => !t.status.errCmd && !t.status.errKeyLen && !t.status.errBusy) (wrote flagged 0x008 0x1C) = true
      ∧ next (fun t => !t.status.errCmd && !t.status.errKeyLen && !t.status.errBusy) (step (flagged.facing (.reset []))) = true := by
  decide

theorem witness_ClearingEnabledPendingBitsDropsIrq :
    flagged.irq = true ∧ (flagged.irqEn.doneIe = true → flagged.status.done = true → (0x1E : Word).getLsbD 1 = true)
      ∧ (flagged.irqEn.errIe = true → (flagged.status.errCmd = true → (0x1E : Word).getLsbD 2 = true)
        ∧ (flagged.status.errKeyLen = true → (0x1E : Word).getLsbD 3 = true)
        ∧ (flagged.status.errBusy = true → (0x1E : Word).getLsbD 4 = true)) := by decide

theorem witness_CompletionPublishesAndWipes :
    ∃ (s u : State) (d : Vector Word 5) (e : Event), s.status.busy = true ∧ s.pending = some d ∧ u.status.busy = false
      ∧ (∀ held, e ≠ .reset held) ∧ e ≠ .engine :=
  ⟨running, keyed, _, .bus (writeAccess 0 0x01C 5), rfl, rfl, rfl, by simp, by simp⟩

theorem witness_MachineIsIdleWhenTheRunIsOver :
    State.reset.status.busy = false ∧ State.reset.inputs = [] ∧ State.reset.runOver 0 = true := by decide

/-- Events still to come, none a reset. -/
theorem witness_CompletionIsEventual :
    ∃ (s : State) (d : Vector Word 5), s.status.busy = true ∧ s.pending = some d ∧ s.inputs ≠ []
      ∧ ∀ e ∈ s.inputs, ∀ held, e ≠ .reset held :=
  ⟨running.facing (.bus (readAccess 0 0x008)), _, rfl, rfl, by decide, by simp [State.facing, running, keyed, State.reset, acceptHmac, setBusyDone, setDigest, setPending]⟩

/-- Both ways `BUSY` falls. -/
theorem witness_BusyFallsOnlyByCompletionOrReset :
    ∃ s t u v : State, step s = .next t ∧ s.status.busy = true ∧ t.status.busy = false
      ∧ step u = .next v ∧ u.status.busy = true ∧ v.status.busy = false :=
  ⟨running, completeWith keyed.hmacDigest running, running.facing (.reset []), resetStep [] running,
    rfl, rfl, rfl, rfl, rfl, rfl⟩

theorem witness_BusyRisesOnlyByAcceptedHmac :
    ∃ s t : State, step s = .next t ∧ s.status.busy = false ∧ t.status.busy = true :=
  ⟨keyed.facing (.bus (writeAccess 0 0x004 1)), respond (writeAccess 0 0x004 1) ⟨.okay, none⟩ running, rfl, rfl, rfl⟩

/-- `DONE` rises by completion and by ZEROIZE, and falls by W1C, by acceptance and by reset. -/
theorem witness_DoneChangesOnlyAsTheRulesSay :
    running.status.done = false ∧ next (fun t => t.status.done) (step running) = true
      ∧ keyed.status.done = false ∧ next (fun t => t.status.done) (wrote keyed 0x004 2) = true
      ∧ flagged.status.done = true ∧ next (fun t => !t.status.done) (wrote flagged 0x008 2) = true
      ∧ next (fun t => !t.status.done) (wrote { flagged with keyLen := 64 } 0x004 1) = true
      ∧ next (fun t => !t.status.done) (step (flagged.facing (.reset []))) = true := by decide

/-- A step of each case: reset, completion, acceptance, ZEROIZE. -/
theorem witness_DigestSurvivesUntilNextCommandOrReset :
    next (fun t => t.dig != flagged.dig) (step (flagged.facing (.reset []))) = true
      ∧ next (fun t => t.dig != running.dig)
          (step { running with pending := some flagged.dig }) = true
      ∧ next (fun t => t.dig != flagged.dig) (wrote { flagged with keyLen := 0 } 0x004 1) = true
      ∧ next (fun t => t.dig != flagged.dig) (wrote flagged 0x004 2) = true := by decide

/-- The ends of the window, and the addresses beside them where there are such. -/
theorem witness_PlatformAddressesReachTheWindowOnly :
    Config.base + (0xFFF : Offset).toNat = Config.base + 0xFFF ∧ Config.base + 0xFFF < Config.base + 0x1000 :=
  ⟨rfl, by omega⟩

/-- Reset meets the invariant, and so does a running command. -/
theorem inv_running : Inv running where
  pending_iff_busy := rfl
  not_busy_and_done := by decide
  key_length_legal := by decide
  digest_zero_while_busy := fun _ => rfl
  key_length_while_busy := fun _ => by decide
  pending_is_digest := fun d h => by
    simp only [running, acceptHmac_pending, Option.some.injEq] at h
    exact h.symm

theorem witness_StepKeepsInvariant : ∃ s t : State, Inv s ∧ s.status.busy = true ∧ step s = .next t :=
  ⟨running, completeWith keyed.hmacDigest running, inv_running, rfl, rfl⟩

theorem witness_NoStepIsStuck : ∃ s : State, Inv s ∧ s.status.busy = true := ⟨running, inv_running, rfl⟩

/-- The empty key and the longest. -/
theorem witness_LoadKeyAndLoadMsgPlaceTheOperands :
    ∃ (s : State) (k l : List Byte), s.status.busy = false ∧ k.length = 0 ∧ l.length = 64 :=
  ⟨keyed, [], List.replicate 64 1, by decide⟩

/-- An idle block; a key loaded as it is, and one the host reduces. -/
theorem witness_BlockMacSequenceReadsTheDigest :
    ∃ (s : State) (k l : List Byte), s.status.busy = false ∧ k.length ≤ 64 ∧ 64 < l.length :=
  ⟨keyed, List.replicate 64 1, List.replicate 65 1, by decide⟩

theorem witness_Base32YieldsFiveEighthsOfItsCharacters :
    ∃ k, base32Decode ['M', 'Z', 'X', 'W', '6', 'Y', 'R', '='] = .ok k := ⟨[102, 111, 111, 98], by rfl⟩

/-- The ends of the range of accepted timestamps and the first refused ones. -/
theorem witness_IntervalIsTheExactFloorOrRefused :
    (0 : Rat) ≤ 0 ∧ (0 : Rat) < 30 * 2 ^ 64 ∧ (30 * 2 ^ 64 - 1 : Rat) < 30 * 2 ^ 64 ∧ (-1 : Rat) < 0
      ∧ (30 * 2 ^ 64 : Rat) ≤ 30 * 2 ^ 64 := by norm_num

theorem witness_IntervalIsMonotone :
    ∃ (t u : Rat) (c d : BitVec 64), t ≤ u ∧ interval (.seconds t) = .ok c ∧ interval (.seconds u) = .ok d :=
  ⟨0, 0, 0, 0, le_refl 0, by simp [interval, timeStep]; decide, by simp [interval, timeStep]; decide⟩

theorem witness_TruncateTakesFourBytesInside : ∃ d : List Byte, d.length = 20 ∧ truncateOffset d = 15 :=
  ⟨List.replicate 20 0xFF, by decide⟩

/-- A poll that is left and one that goes on. -/
theorem witness_HostTurnPerformsOneTransaction :
    (Reg.offset .status).toNat % 4 = 0 ∧ (0x00000001 : Word) &&& 1 ≠ 0 ∧ (0x00000002 : Word) &&& 1 = 0
      ∧ (blockMacHost 0 [] 0).todo.head? = some (.poll (Reg.offset .status) 1 0) := by decide

/-- A running block and a schedule of both kinds of turn; an idle block and the least numbers of turns. -/
theorem witness_BlockMacGivesTheDigestOrIsUnderWay :
    Inv running ∧ (∀ tn ∈ [Turn.host, .other .engine, .host], tn = .host ∨ tn = .other .engine)
      ∧ keyed.status.busy = false ∧ (loadKey 0 (hostKey [])).length + 5 ≤ 6 ∧ 9 ≤ 9 :=
  ⟨inv_running, by simp, by decide⟩

/-- No `DONE`, and an error bit beside `DONE`. -/
theorem witness_FailedStatusCheckIsSurfaced :
    ∃ σ τ : System, σ.host.todo = [.check] ∧ σ.machine.status.done = false
      ∧ τ.host.todo = [.check] ∧ τ.machine.status.done = true ∧ τ.machine.status.anyError = true :=
  ⟨⟨keyed, .start 0 [.check]⟩, ⟨flagged, .start 0 [.check]⟩, by decide⟩

/-- A secret that is refused, a timestamp that is refused, and a pair that is not. -/
theorem witness_GenerateCodeIsThePipelineOrItsFirstFailure :
    base32Decode ['1'] = .error .decodeError ∧ base32Decode [] = .ok [] ∧ interval .notANumber = .error .badTimestamp
      ∧ interval (.seconds 0) = .ok 0 ∧ Inv running := by
  refine ⟨rfl, rfl, rfl, ?_, inv_running⟩
  simp [interval, timeStep]; decide

end Sys2Proof.Tests
end

/-! The statements of 10_state.md: the invariant every step keeps, how `BUSY` and `DONE` change, what no access
reveals, and the interrupt level. -/

namespace Sys2Proof.Machine

/-! ## The invariant -/

/-- The invariant speaks of the registers only. -/
theorem Inv.of_toBlock_eq {s t : State} (hs : Inv s) (h : t.toBlock = s.toBlock) : Inv t := by
  obtain ⟨hpb, hbd, hkl, hdz, hkb, hpd⟩ := hs
  constructor <;> rw [h] <;> assumption

/-- On an idle block the invariant says no more than this. -/
theorem inv_of_idle {t : State} (hb : t.status.busy = false) (hp : t.pending = none)
    (hk : t.keyLen.toNat ≤ 64 ∨ t.keyLen = 127) : Inv t where
  pending_iff_busy := by simp [hp, hb]
  not_busy_and_done := by simp [hb]
  key_length_legal := hk
  digest_zero_while_busy := by simp [hb]
  key_length_while_busy := by simp [hb]
  pending_is_digest := by simp [hp]

theorem Inv.pending_of_idle {s : State} (hs : Inv s) (hb : s.status.busy = false) : s.pending = none := by
  simpa [hb] using hs.pending_iff_busy

/-- A change of flags and interrupt enables that keeps `BUSY` and does not set `DONE` keeps the invariant, whether a
command runs or not. -/
theorem Inv.withFlags {s : State} (hs : Inv s) {f : Status} (e : IrqEn) (hb : f.busy = s.status.busy)
    (hd : f.done = true → s.status.done = true) : Inv { s with status := f, irqEn := e } where
  pending_iff_busy := hs.pending_iff_busy.trans hb.symm
  not_busy_and_done := fun ⟨hfb, hfd⟩ => hs.not_busy_and_done ⟨hb ▸ hfb, hd hfd⟩
  key_length_legal := hs.key_length_legal
  digest_zero_while_busy := fun h => hs.digest_zero_while_busy (hb ▸ h)
  key_length_while_busy := fun h => hs.key_length_while_busy (hb ▸ h)
  pending_is_digest := hs.pending_is_digest

theorem Inv.raiseError {s : State} (hs : Inv s) (c : ErrorCause) : Inv (raiseError c s) :=
  hs.withFlags s.irqEn (setError_busy c _) (by simp)

theorem Inv.writeStatus {s : State} (hs : Inv s) (v : Word) : Inv (writeStatus v s) :=
  hs.withFlags s.irqEn (w1c_busy v _) (by simp +contextual [Status.w1c])

theorem Inv.writeIrqEn {s : State} (hs : Inv s) (v : Word) : Inv (writeIrqEn v s) :=
  hs.withFlags (IrqEn.ofWord v) rfl id

/-- Acceptance establishes the running half of the invariant, whatever held before. -/
theorem inv_acceptHmac {s : State} (hk : s.keyLen.toNat ≤ 64) : Inv (acceptHmac s) where
  pending_iff_busy := rfl
  not_busy_and_done := by simp
  key_length_legal := .inl hk
  digest_zero_while_busy := fun _ => rfl
  key_length_while_busy := fun _ => hk
  pending_is_digest := fun _ hd => (Option.some.inj hd).symm

/-- What a write leaves in `KEY_LEN.LEN` is a legal length or the marker (10_state.md R28). -/
theorem keyLenOfWord_legal (v : Word) : (keyLenOfWord v).toNat ≤ 64 ∨ keyLenOfWord v = 127 := by
  by_cases h : v.toNat ≤ Config.keyMax
  · left
    simp only [keyLenOfWord, if_pos h, BitVec.toNat_setWidth]
    exact (Nat.mod_le _ _).trans h
  · exact .inr (if_neg h)

/-- Every change a step can make to the registers keeps the invariant. Acceptance starts a command; every other change
touches flags and interrupt enables only, or leaves the block idle. -/
theorem BlockStep.inv {s : State} {b : Block} (h : BlockStep s b) (hs : Inv s) : Inv { s with toBlock := b } := by
  cases h with
  | unchanged => exact hs
  | reset | completed => exact inv_of_idle rfl rfl (.inr rfl)
  | lockedWrite => exact hs.raiseError .errBusy
  | statusWrite => exact hs.writeStatus _
  | irqEnWrite => exact hs.writeIrqEn _
  | reservedCommand => exact hs.raiseError .errCmd
  | hmacRejected => exact hs.raiseError .errKeyLen
  | hmacAccepted _ _ _ hk => exact inv_acceptHmac hk
  | zeroized _ hb => exact inv_of_idle hb (hs.pending_of_idle hb) (.inr rfl)
  | keyLenWrite _ hb => exact inv_of_idle hb (hs.pending_of_idle hb) (keyLenOfWord_legal _)
  | msgHiWrite _ hb | msgLoWrite _ hb | keyWordWrite _ hb =>
    exact inv_of_idle hb (hs.pending_of_idle hb) hs.key_length_legal

/-- Settles O48: each change of `BlockStep` keeps `Inv`, and a step makes one of them. -/
theorem stepKeepsInvariant : Obligations.StepKeepsInvariant :=
  fun _ _ hs h => ((step_blockStep h).inv hs).of_toBlock_eq rfl

/-! ## How `BUSY` and `DONE` change -/

/-- An aligned offset that selects a register is that register's offset (10_state.md R23). -/
theorem offset_regAt {off : Offset} (ha : off.toNat % 4 = 0) (hr : regAt off ≠ .reserved) :
    (regAt off).offset = off := by
  rw [← BitVec.toNat_inj]
  unfold regAt at hr ⊢
  dsimp only at hr ⊢
  split_ifs at hr ⊢ <;> simp [Reg.offset] at hr ⊢ <;> omega

/-- The access of a write to a register that has an offset of its own. -/
theorem State.facesWrite.access {s : State} {r : Reg} {v : Word} (h : s.facesWrite r v) (hr : r ≠ .reserved) :
    ∃ m, s.nextEvent.access = some (writeAccess m r.offset v) := by
  obtain ⟨⟨m, off, n, w⟩, ha, hw, rfl, rfl⟩ := h
  obtain ⟨rfl, hal⟩ := wellFormed_iff.1 hw
  exact ⟨m, by rw [ha, offset_regAt hal hr]⟩

/-- A word that decodes to a command is the command's encoding. -/
theorem eq_encode_of_decode {v : Word} {i : Instr} (h : decode v = .instr i) : v = encode i := by
  by_cases hv : v.toNat < 16
  · rw [decode_of_lt hv] at h
    split_ifs at h <;> cases h <;> rw [← BitVec.toNat_inj] <;> assumption
  · rw [decode_of_ge (by omega)] at h
    cases h

/-- What a step can do to `BUSY` and `DONE`: a coarser reading of `BlockStep`, with the access that does it. -/
inductive BusyDoneStep (s : State) : Block → Prop
  | kept {b : Block} (hb : b.status.busy = s.status.busy) (hd : b.status.done = s.status.done) : BusyDoneStep s b
  | reset {held : List Access} (he : s.nextEvent = .reset held) : BusyDoneStep s Block.reset
  | completed {d : Vector Word 5} (he : s.nextEvent = .engine) (hb : s.status.busy = true) (hp : s.pending = some d) :
      BusyDoneStep s (completeWith d s).toBlock
  | statusWrite {m : Nat} {v : Word} (ha : s.nextEvent.access = some (writeAccess m 0x008 v)) :
      BusyDoneStep s (writeStatus v s).toBlock
  | hmacAccepted {m : Nat} (ha : s.nextEvent.access = some (writeAccess m 0x004 0x00000001))
      (hb : s.status.busy = false) (hk : s.keyLen.toNat ≤ 64) : BusyDoneStep s (acceptHmac s).toBlock
  | zeroized {m : Nat} (ha : s.nextEvent.access = some (writeAccess m 0x004 0x00000002))
      (hb : s.status.busy = false) : BusyDoneStep s (zeroize s).toBlock

theorem BlockStep.busyDoneStep {s : State} {b : Block} (h : BlockStep s b) : BusyDoneStep s b := by
  cases h with
  | reset he => exact .reset he
  | completed he hb hp => exact .completed he hb hp
  | statusWrite hw =>
    obtain ⟨m, ha⟩ := hw.access (by simp)
    exact .statusWrite ha
  | hmacAccepted hw hb hd hk =>
    obtain rfl := eq_encode_of_decode hd
    obtain ⟨m, ha⟩ := hw.access (by simp)
    exact .hmacAccepted ha hb hk
  | zeroized hw hb hd =>
    obtain rfl := eq_encode_of_decode hd
    obtain ⟨m, ha⟩ := hw.access (by simp)
    exact .zeroized ha hb
  | _ => exact .kept rfl rfl

theorem step_busyDoneStep {s t : State} (h : step s = .next t) : BusyDoneStep s t.toBlock :=
  (step_blockStep h).busyDoneStep

/-- Settles O41: of the changes to `BUSY` only reset and completion lower it. -/
theorem busyFallsOnlyByCompletionOrReset : Obligations.BusyFallsOnlyByCompletionOrReset := by
  intro s t h hs ht
  have hstep := step_busyDoneStep h
  generalize t.toBlock = b at hstep ht ⊢
  cases hstep with
  | kept hb => simp [hb, hs] at ht
  | reset he => exact .inl ⟨⟨_, he⟩, rfl⟩
  | completed he hb hp => exact .inr ⟨he, hp, rfl, rfl, rfl, rfl, rfl, rfl⟩
  | statusWrite => simp [hs] at ht
  | hmacAccepted => simp at ht
  | zeroized ha hb => simp [hs] at hb

/-- Settles O42: of the changes to `BUSY` only acceptance raises it. -/
theorem busyRisesOnlyByAcceptedHmac : Obligations.BusyRisesOnlyByAcceptedHmac := by
  intro s t h hs ht
  have hstep := step_busyDoneStep h
  generalize t.toBlock = b at hstep ht ⊢
  cases hstep with
  | kept hb => simp [hb, hs] at ht
  | reset he => cases ht
  | completed he hb => simp [hs] at hb
  | statusWrite => simp [hs] at ht
  | hmacAccepted ha hb hk => exact ⟨⟨_, ha⟩, hk, rfl, rfl, rfl⟩
  | zeroized => simp [hs] at ht

/-- Settles O43: completion and ZEROIZE set `DONE`; reset, W1C and acceptance clear it. -/
theorem doneChangesOnlyAsTheRulesSay : Obligations.DoneChangesOnlyAsTheRulesSay := by
  intro s t h
  have hstep := step_busyDoneStep h
  generalize t.toBlock = b at hstep ⊢
  cases hstep with
  | kept hb hd => simp +contextual [hd]
  | reset he => exact ⟨fun _ ht => (nomatch ht), fun _ _ => .inl ⟨_, he⟩⟩
  | completed he hb => exact ⟨fun _ _ => .inl ⟨he, hb⟩, fun _ ht => (nomatch ht)⟩
  | statusWrite ha =>
    exact ⟨fun hs ht => by simp [Status.w1c, hs] at ht,
      fun hs ht => .inr (.inl ⟨_, _, ha, by simpa [Status.w1c, hs] using ht⟩)⟩
  | hmacAccepted ha hb => exact ⟨fun _ ht => (nomatch ht), fun _ _ => .inr (.inr ⟨hb, _, ha⟩)⟩
  | zeroized ha hb => exact ⟨fun _ _ => .inr ⟨hb, _, ha⟩, fun _ ht => (nomatch ht)⟩

/-! ## What no access reveals -/

/-- s with other key words and another `PENDING`. -/
def State.withSecrets (k : Vector Word 16) (p : Option (Vector Word 5)) (s : State) : State :=
  { s with keyw := k, pending := p }

/-- Two states that differ in the key words and in `PENDING` only. -/
def AlikeButSecrets (s u : State) : Prop := ∃ k p, u = s.withSecrets k p

/-- Both outcomes are next states, and these differ in the key words and in `PENDING` only. -/
def NextAlike (o o' : Host.Outcome State Fault Refusal) : Prop :=
  ∃ t u, o = .next t ∧ o' = .next u ∧ AlikeButSecrets t u

theorem AlikeButSecrets.next {t u : State} (h : AlikeButSecrets t u) : NextAlike (.next t) (.next u) :=
  ⟨t, u, rfl, rfl, h⟩

section
variable {s s' : State} (h : AlikeButSecrets s s')
include h

theorem AlikeButSecrets.busy_eq : s'.status.busy = s.status.busy := by
  obtain ⟨k, p, rfl⟩ := h
  rfl

theorem AlikeButSecrets.keyLen_eq : s'.keyLen = s.keyLen := by
  obtain ⟨k, p, rfl⟩ := h
  rfl

theorem AlikeButSecrets.raiseError (c : ErrorCause) : AlikeButSecrets (raiseError c s) (raiseError c s') := by
  obtain ⟨k, p, rfl⟩ := h
  exact ⟨k, p, rfl⟩

theorem AlikeButSecrets.respond (a : Access) (r : Response) : AlikeButSecrets (respond a r s) (respond a r s') := by
  obtain ⟨k, p, rfl⟩ := h
  exact ⟨k, p, rfl⟩

/-- The busy lock looks at `BUSY` only. -/
theorem AlikeButSecrets.unlessBusy {t t' : State} (ht : AlikeButSecrets t t') :
    AlikeButSecrets (unlessBusy s t) (unlessBusy s' t') := by
  by_cases hb : s.status.busy = true
  · rw [unlessBusy_of_busy _ hb, unlessBusy_of_busy _ (h.busy_eq.trans hb)]
    exact h.raiseError _
  · have hi : s.status.busy = false := by simpa using hb
    rw [unlessBusy_of_idle _ hi, unlessBusy_of_idle _ (h.busy_eq.trans hi)]
    exact ht

/-- A read returns nothing of the key words or of `PENDING` (10_state.md R30, R40). -/
theorem AlikeButSecrets.readReg_eq (r : Reg) : readReg s'.toBlock r = readReg s.toBlock r := by
  obtain ⟨k, p, rfl⟩ := h
  cases r <;> rfl

/-- Acceptance puts what it computes from the key into `PENDING`, and nothing of it anywhere else. -/
theorem AlikeButSecrets.acceptHmac : AlikeButSecrets (acceptHmac s) (acceptHmac s') := by
  obtain ⟨k, p, rfl⟩ := h
  exact ⟨k, some (s.withSecrets k p).hmacDigest, rfl⟩

theorem AlikeButSecrets.zeroize : AlikeButSecrets (zeroize s) (zeroize s') := by
  obtain ⟨k, p, rfl⟩ := h
  exact ⟨Vector.replicate 16 0, p, rfl⟩

theorem AlikeButSecrets.exec (i : Instr) : NextAlike (exec i s) (exec i s') := by
  cases i with
  | nop => exact (h.unlessBusy h).next
  | hmac =>
    refine (h.unlessBusy ?_).next
    rw [h.keyLen_eq]
    split
    · exact h.raiseError _
    · exact h.acceptHmac
  | zeroize => exact (h.unlessBusy h.zeroize).next

theorem AlikeButSecrets.commandWrite (v : Word) : NextAlike (commandWrite v s) (commandWrite v s') := by
  unfold Machine.commandWrite
  rw [h.busy_eq]
  split
  · exact (h.raiseError _).next
  · split
    · exact (h.raiseError _).next
    · exact h.exec _

theorem AlikeButSecrets.writeReg (r : Reg) (v : Word) : NextAlike (writeReg r v s) (writeReg r v s') := by
  cases r with
  | id | dig _ | reserved => exact h.next
  | cmd => exact h.commandWrite v
  | status | irqEn =>
    obtain ⟨k, p, rfl⟩ := h
    exact AlikeButSecrets.next ⟨k, p, rfl⟩
  | keyLen | msgHi | msgLo =>
    refine (h.unlessBusy ?_).next
    obtain ⟨k, p, rfl⟩ := h
    exact ⟨k, p, rfl⟩
  | keyw i =>
    refine (h.unlessBusy ?_).next
    obtain ⟨k, p, rfl⟩ := h
    exact ⟨k.set i v, p, rfl⟩

theorem AlikeButSecrets.busAccess (a : Access) : NextAlike (busAccess a s) (busAccess a s') := by
  unfold Machine.busAccess
  split
  · split
    · rw [h.readReg_eq]
      exact (h.respond a _).next
    · obtain ⟨t, u, ht, hu, htu⟩ := h.writeReg (regAt a.off) ‹_›
      rw [ht, hu]
      exact (htu.respond a _).next
  · exact (h.respond a _).next

end

/-- Settles O45: an access takes two states alike but for the secrets to two such states, the log among what is alike. -/
theorem noAccessRevealsKeyOrPending : Obligations.NoAccessRevealsKeyOrPending := by
  intro s k p a
  have h : AlikeButSecrets s (s.withSecrets k p) := ⟨k, p, rfl⟩
  obtain ⟨t, u, ht, hu, k', p', rfl⟩ := h.busAccess a
  exact ⟨t, _, ht, hu, rfl, rfl⟩

/-! ## The interrupt level -/

theorem anyError_iff {f : Status} : f.anyError = true ↔ f.errCmd = true ∨ f.errKeyLen = true ∨ f.errBusy = true := by
  simp [Status.anyError, or_assoc]

theorem irq_iff {b : Block} :
    b.irq = true ↔
      (b.irqEn.doneIe = true ∧ b.status.done = true) ∨ (b.irqEn.errIe = true ∧ b.status.anyError = true) := by
  simp [Block.irq]

/-- Settles O36: the level term by term, and no flag is set after reset. -/
theorem irqIsTheEnabledPendingLevel : Obligations.IrqIsTheEnabledPendingLevel :=
  ⟨rfl, fun _ => by rw [irq_iff, anyError_iff]⟩

end Sys2Proof.Machine

/-! The statements of 20_memory.md: writes made twice, and the decoding of platform addresses. -/

namespace Sys2Proof.Machine

/-! ## A write made twice -/

/-- W1C clears the flags written as 1, and the second time finds them clear. -/
@[simp] theorem w1c_w1c (v : Word) (f : Status) : (f.w1c v).w1c v = f.w1c v := by
  simp [Status.w1c]

/-- Under the busy lock an effect f made twice leaves the registers as once, the response between the two recorded: on an
idle block where f alone does and leaves `BUSY` as it is, on a busy one because ERR_BUSY is already set. -/
theorem unlessBusy_twice (f : State → State) (a : Access) (p : Response) (s : State)
    (hb : (f s).status.busy = s.status.busy) (hf : (f (respond a p (f s))).toBlock = (f s).toBlock) :
    (unlessBusy (respond a p (unlessBusy s (f s))) (f (respond a p (unlessBusy s (f s))))).toBlock
      = (unlessBusy s (f s)).toBlock := by
  cases hs : s.status.busy with
  | true =>
    rw [unlessBusy_of_busy _ hs, unlessBusy_of_busy _ (by simp [hs])]
    rfl
  | false => rw [unlessBusy_of_idle _ hs, unlessBusy_of_idle _ (by simp [hb, hs]), hf]

/-- A write to any register but `CMD`, made again after its response, leaves the registers as they are. -/
theorem writeReg_twice {r : Reg} (hr : r ≠ .cmd) (v : Word) (a : Access) (p : Response) (s : State) :
    ∃ t u, writeReg r v s = .next t ∧ writeReg r v (respond a p t) = .next u ∧ u.toBlock = t.toBlock := by
  cases r with
  | cmd => exact absurd rfl hr
  | id | dig _ | reserved | irqEn => exact ⟨_, _, rfl, rfl, rfl⟩
  | status => exact ⟨_, _, rfl, rfl, by simp [writeStatus]⟩
  | keyLen => exact ⟨_, _, rfl, rfl, unlessBusy_twice (fun s => { s with keyLen := keyLenOfWord v }) a p s rfl rfl⟩
  | msgHi => exact ⟨_, _, rfl, rfl, unlessBusy_twice (fun s => { s with msgHi := v }) a p s rfl rfl⟩
  | msgLo => exact ⟨_, _, rfl, rfl, unlessBusy_twice (fun s => { s with msgLo := v }) a p s rfl rfl⟩
  | keyw i =>
    exact ⟨_, _, rfl, rfl,
      unlessBusy_twice (fun s => { s with keyw := s.keyw.set i v }) a p s rfl (by simp [Vector.set_set])⟩

/-- Of the aligned offsets only 0x004 selects `CMD` (10_state.md R23). -/
theorem regAt_ne_cmd {off : Offset} (ha : off.toNat % 4 = 0) (ho : off ≠ 0x004) : regAt off ≠ .cmd := fun hr =>
  ho (by rw [← offset_regAt ha (by simp [hr]), hr]; rfl)

/-- Settles O32: an aligned write is a register write other than to `CMD`, and any other is answered with the error
response, which touches no register. -/
theorem writesOtherThanCommandsAreIdempotent : Obligations.WritesOtherThanCommandsAreIdempotent := by
  intro s m v off ho
  cases hw : (writeAccess m off v).wellFormed with
  | true =>
    obtain ⟨-, ha⟩ := wellFormed_iff.1 hw
    obtain ⟨t, u, ht, hu, htu⟩ := writeReg_twice (regAt_ne_cmd ha ho) v (writeAccess m off v) ⟨.okay, none⟩ s
    exact ⟨respond _ _ t, respond _ _ u, by rw [step_write s m v ha, ht, onNext_next],
      by rw [step_write _ m v ha, hu, onNext_next], htu⟩
  | false => exact ⟨_, _, step_illFormed s hw, step_illFormed _ hw, rfl⟩

/-! ## Platform addresses -/

/-- The address BASE + off, an offset of the window, is the access at off (20_memory.md R52). -/
@[simp] theorem decodeAddress_base_add (m : Nat) (off : Offset) (n : Nat) (w : Option Word) :
    decodeAddress ⟨m, Config.base + off.toNat, n, w⟩ = some ⟨m, off, n, w⟩ := by
  have hlt : off.toNat < Config.windowBytes := off.isLt
  simp [decodeAddress, hlt]

/-- An address below BASE or above BASE + 0xFFF is none of the block's (20_memory.md R52). -/
theorem decodeAddress_outside {a : PlatformAccess} (h : a.addr < Config.base ∨ Config.base + 0xFFF < a.addr) :
    decodeAddress a = none := by
  refine if_neg ?_
  rw [Config.windowBytes]
  omega

/-- An access the window decodes is the access it decodes to. -/
theorem perform_mem_of_some {a : PlatformAccess} {w : Access} (h : decodeAddress a = some w) (s : State) :
    perform (.mem a) s = perform (.bus w) s := by
  simp [perform, platformAccess, h]

/-- An access the window does not decode changes nothing. -/
theorem perform_mem_of_none {a : PlatformAccess} (h : decodeAddress a = none) (s : State) :
    perform (.mem a) s = .next s := by
  simp [perform, platformAccess, h]

/-- Settles O47: the two cases of the address decoder. -/
theorem platformAddressesReachTheWindowOnly : Obligations.PlatformAddressesReachTheWindowOnly := by
  refine ⟨fun s m off n w => ?_, fun s a h => perform_mem_of_none (decodeAddress_outside h) s⟩
  obtain ⟨t, ht⟩ := busAccess_answers_next ⟨m, off, n, w⟩ s
  exact ⟨t, t, (perform_mem_of_some (decodeAddress_base_add m off n w) s).trans ht, ht, rfl⟩

end Sys2Proof.Machine

/-! The statements of 30_encoding.md: the decoder against the encoder, the byte order of key, message and digest, what
`LOADKEY` and `LOADMSG` leave in the registers, and the transactions of a host turn. -/

namespace Sys2Proof.Machine

/-! ## Command words -/

/-- The decoder undoes the encoder (30_encoding.md R71). -/
@[simp] theorem decode_encode (i : Instr) : decode (encode i) = .instr i := by
  cases i <;> decide

@[simp] theorem isReserved_instr (i : Instr) : (Decoded.instr i).isReserved = false := rfl
@[simp] theorem isReserved_reserved (why : ReservedReason) : (Decoded.reserved why).isReserved = true := rfl

/-- The words of the three commands are the three lowest; every other is reserved (30_encoding.md R73). -/
theorem decode_isReserved_iff (w : Word) : (decode w).isReserved = true ↔ 3 ≤ w.toNat := by
  by_cases hw : w.toNat < 16
  · rw [decode_of_lt hw]
    split_ifs <;> simp <;> omega
  · rw [decode_of_ge (by omega)]
    exact iff_of_true rfl (by omega)

/-- Settles O4: decoder and encoder undo each other, and the reserved words are those from 3 on. -/
theorem decodeInvertsEncodeAndReservesTheRest : Obligations.DecodeInvertsEncodeAndReservesTheRest :=
  ⟨rfl, rfl, rfl, fun _ i => ⟨eq_encode_of_decode, fun h => h ▸ decode_encode i⟩, decode_isReserved_iff⟩

/-- Settles O5: the decoder evaluated on seven words. -/
theorem writtenOutWordsDecode : Obligations.WrittenOutWordsDecode := by
  unfold Obligations.WrittenOutWordsDecode
  decide

/-! ## Words as runs of four bytes -/

/-- The bytes of a list of words, four a word. -/
theorem length_flatMap_bytesOf (ws : List Word) : (ws.flatMap bytesOf).length = 4 * ws.length := by
  simp [List.length_flatMap, mul_comm]

/-- Byte j of a list of words is byte j mod 4 of word j div 4. -/
theorem getElem?_flatMap_bytesOf (ws : List Word) {j : Nat} (hj : j < 4 * ws.length) :
    (ws.flatMap bytesOf)[j]? = (bytesOf (ws.getD (j / 4) 0))[j % 4]? := by
  induction ws generalizing j with
  | nil => simp at hj
  | cons w ws ih =>
    rw [List.flatMap_cons]
    by_cases h4 : j < 4
    · rw [List.getElem?_append_left h4, Nat.div_eq_of_lt h4, Nat.mod_eq_of_lt h4, List.getD_cons_zero]
    · obtain ⟨i, rfl⟩ : ∃ i, j = i + 4 := ⟨j - 4, by omega⟩
      rw [List.getElem?_append_right (by simp), bytesOf_length, Nat.add_sub_cancel,
        ih (by simpa [Nat.mul_add] using hj), Nat.add_div_right _ (by decide), Nat.add_mod_right, List.getD_cons_succ]

/-- The first i words are the first 4 i bytes. -/
theorem take_flatMap_bytesOf (ws : List Word) (i : Nat) :
    (ws.flatMap bytesOf).take (4 * i) = (ws.take i).flatMap bytesOf := by
  induction ws generalizing i with
  | nil => simp
  | cons w ws ih =>
    cases i with
    | zero => simp
    | succ i => simp [Nat.mul_succ, Nat.add_comm _ 4, List.take_append, ih]

/-- The word of the first four bytes of a string, with 0 for those it has not (30_encoding.md R77, R81). -/
def leadingWord (bs : List Byte) : Word := wordOf (bs.getD 0 0) (bs.getD 1 0) (bs.getD 2 0) (bs.getD 3 0)

theorem bytesOf_leadingWord {bs : List Byte} (h : 4 ≤ bs.length) : bytesOf (leadingWord bs) = bs.take 4 := by
  match bs, h with
  | b0 :: b1 :: b2 :: b3 :: rest, _ => simp [leadingWord]

/-- A string shorter than a word is only padded by its leading word. -/
theorem prefix_bytesOf_leadingWord (bs : List Byte) : bs <+: bytesOf (leadingWord bs) ++ bs.drop 4 := by
  match bs with
  | [] => exact List.nil_prefix
  | [_] | [_, _] | [_, _, _] | _ :: _ :: _ :: _ :: _ => simp [leadingWord]

/-! ## Key, message and digest -/

theorem keyBuffer_length (b : Block) : b.keyBuffer.length = 64 := by
  rw [Block.keyBuffer, length_flatMap_bytesOf, Vector.length_toList]

/-- Settles O20: the key buffer is the bytes of 16 words, and the key its first n bytes. -/
theorem keyBytesAreBigEndianBytesOfKeyWords : Obligations.KeyBytesAreBigEndianBytesOfKeyWords := by
  refine fun b => ⟨keyBuffer_length b, fun j hj => getElem?_flatMap_bytesOf _ (by simpa using hj), fun n hn => ⟨?_, ?_⟩⟩
  · simpa [Block.keyBytes, keyBuffer_length] using hn
  · exact fun j hj => List.getElem?_take_of_lt hj

/-- The 64-bit value of two words has the bytes of the one, then of the other. -/
theorem bytesOf64_append (hi lo : Word) : bytesOf64 (hi ++ lo) = bytesOf hi ++ bytesOf lo := by
  rw [bytesOf64, BitVec.extractLsb'_append_eq_left, BitVec.extractLsb'_append_eq_right]

/-- Settles O21: the message is by definition those eight bytes, and the bytes of the 64-bit value are the same. -/
theorem messageIsBigEndianHiLo : Obligations.MessageIsBigEndianHiLo :=
  fun b => ⟨rfl, (bytesOf64_append b.msgHi b.msgLo).symm⟩

/-- Digest word i is the leading word of the digest from byte 4 i on. -/
theorem digestWords_getElem (d : List Byte) (i : Fin 5) : (digestWords d)[i] = leadingWord (d.drop (4 * i.val)) := by
  fin_cases i <;> simp [digestWords, leadingWord]

/-- Settles O22: from each of the five offsets on, four bytes of the digest are left to make the word. -/
theorem digestWordsHoldTheDigestBytes : Obligations.DigestWordsHoldTheDigestBytes := fun d hd i => by
  rw [digestWords_getElem, bytesOf_leadingWord (by rw [List.length_drop]; omega)]

/-! ## Runs over a list of events -/

/-- The events es take s to t, whatever events come after them. -/
def RunsTo (es : List Event) (s t : State) : Prop :=
  ∀ rest, Host.Core.run Sys2Proof.core es.length { s with inputs := es ++ rest } = .next { t with inputs := rest }

theorem RunsTo.nil (s : State) : RunsTo [] s s := fun _ => rfl

theorem RunsTo.append {as bs : List Event} {s t u : State} (hst : RunsTo as s t) (htu : RunsTo bs t u) :
    RunsTo (as ++ bs) s u := fun rest => by
  rw [List.length_append, List.append_assoc, run_add _ (hst (bs ++ rest)), htu rest]

/-- A `WR` runs to what its register write leaves, its response recorded. -/
theorem RunsTo.wr (m : Nat) {r : Reg} {v : Word} {s u : State}
    (h : ∀ rest, writeReg r v { s with inputs := rest } = .next { u with inputs := rest }) :
    RunsTo [wr m r v] s (respond (writeAccess m r.offset v) ⟨.okay, none⟩ u) := fun rest =>
  run_event 0 ((perform_wr m r v _).trans (congrArg _ (h rest)))

/-! ## `LOADKEY` and `LOADMSG` -/

/-- What is left to load after a key word is the key from its fifth byte on. -/
theorem loadKeyWords_of_ne_nil (m i : Nat) {k : List Byte} (hk : k ≠ []) :
    loadKeyWords m i k = wr m (.keyw (Fin.ofNat 16 i)) (leadingWord k) :: loadKeyWords m (i + 1) (k.drop 4) := by
  match k, hk with
  | [_], _ | [_, _], _ | [_, _, _], _ | _ :: _ :: _ :: _ :: _, _ => rfl

/-- A key word written at i decides the buffer up to its last byte, with the words before it. -/
theorem take_keyBuffer_set (b : Block) {i : Nat} (hi : i < 16) (w : Word) :
    { b with keyw := b.keyw.set (Fin.ofNat 16 i) w }.keyBuffer.take (4 * (i + 1)) = b.keyBuffer.take (4 * i) ++ bytesOf w := by
  simp only [Block.keyBuffer, take_flatMap_bytesOf, Vector.toList_set]
  simp [List.take_add_one, List.take_set_of_le, Nat.mod_eq_of_lt hi, hi]

/-- On an idle block a `WR` of a locked register, whose effect on the registers is f, runs to that effect. -/
theorem runsTo_wr_of_idle {s : State} (hb : s.status.busy = false) (m : Nat) {r : Reg} {v : Word} {f : Block → Block}
    (hf : ∀ u : State, writeReg r v u = .next (unlessBusy u { u with toBlock := f u.toBlock })) :
    ∃ t, RunsTo [wr m r v] s t ∧ t.toBlock = f s.toBlock :=
  ⟨_, .wr (u := { s with toBlock := f s.toBlock }) m fun _ => (hf _).trans (congrArg _ (unlessBusy_of_idle _ hb)), rfl⟩

/-- The key words put k into the buffer from byte 4 i on, and leave the bytes before it and every other register. -/
theorem runsTo_loadKeyWords {s : State} (hb : s.status.busy = false) (m : Nat) {i : Nat} {k : List Byte}
    (hk : 4 * i + k.length ≤ 64) :
    ∃ t, RunsTo (loadKeyWords m i k) s t ∧ t.toBlock = { s.toBlock with keyw := t.keyw }
      ∧ s.keyBuffer.take (4 * i) ++ k <+: t.keyBuffer := by
  by_cases h0 : k = []
  · subst h0
    exact ⟨s, .nil s, rfl, by simpa using List.take_prefix _ _⟩
  · have hpos := List.length_pos_iff.2 h0
    obtain ⟨u, hsu, hu⟩ := runsTo_wr_of_idle hb m (r := .keyw (Fin.ofNat 16 i)) (v := leadingWord k)
      (f := fun b => { b with keyw := b.keyw.set (Fin.ofNat 16 i) (leadingWord k) }) fun _ => rfl
    obtain ⟨t, hut, ht, hpre⟩ := runsTo_loadKeyWords (s := u) (by rw [hu, hb]) m (i := i + 1) (k := k.drop 4)
      (by rw [List.length_drop]; omega)
    refine ⟨t, loadKeyWords_of_ne_nil m i h0 ▸ hsu.append hut, by rw [ht, hu], ?_⟩
    calc s.keyBuffer.take (4 * i) ++ k
        <+: s.keyBuffer.take (4 * i) ++ (bytesOf (leadingWord k) ++ k.drop 4) :=
          (List.prefix_append_right_inj _).2 (prefix_bytesOf_leadingWord k)
      _ = u.keyBuffer.take (4 * (i + 1)) ++ k.drop 4 := by
          rw [hu, take_keyBuffer_set _ (by omega), List.append_assoc]
      _ <+: t.keyBuffer := hpre
termination_by k.length

/-- A length up to 64 is stored as it is. -/
theorem keyLenOfWord_ofNat {n : Nat} (h : n ≤ 64) : (keyLenOfWord (BitVec.ofNat 32 n)).toNat = n := by
  have hn : (BitVec.ofNat 32 n).toNat = n := Nat.mod_eq_of_lt (by omega)
  rw [keyLenOfWord, if_pos (show _ ≤ Config.keyMax from hn.trans_le h), BitVec.toNat_setWidth, hn]
  omega

/-- `LOADKEY k` on an idle block leaves k as its key and every register but the key's own (30_encoding.md R81). -/
theorem runsTo_loadKey {s : State} (hb : s.status.busy = false) (m : Nat) {k : List Byte} (hk : k.length ≤ 64) :
    ∃ t, RunsTo (loadKey m k) s t ∧ t.toBlock = { s.toBlock with keyw := t.keyw, keyLen := t.keyLen }
      ∧ t.keyLen.toNat = k.length ∧ t.keyBytes k.length = k := by
  obtain ⟨u, hsu, hu, hpre⟩ := runsTo_loadKeyWords hb m (i := 0) (k := k) (by omega)
  obtain ⟨t, hut, ht⟩ := runsTo_wr_of_idle (s := u) (by rw [hu, hb]) m (r := .keyLen) (v := BitVec.ofNat 32 k.length)
    (f := fun b => { b with keyLen := keyLenOfWord (BitVec.ofNat 32 k.length) }) fun _ => rfl
  refine ⟨t, hsu.append hut, by rw [ht, hu], by rw [ht, keyLenOfWord_ofNat hk], ?_⟩
  rw [ht]
  exact (List.prefix_iff_eq_take.1 hpre).symm

/-- `LOADMSG c` on an idle block leaves the bytes of c as its message and every other register (30_encoding.md R81). -/
theorem runsTo_loadMsg {s : State} (hb : s.status.busy = false) (m : Nat) (c : BitVec 64) :
    ∃ t, RunsTo (loadMsg m c) s t ∧ t.toBlock = { s.toBlock with msgHi := t.msgHi, msgLo := t.msgLo }
      ∧ t.message = bytesOf64 c := by
  obtain ⟨u, hsu, hu⟩ := runsTo_wr_of_idle hb m (r := .msgHi) (v := c.extractLsb' 32 32)
    (f := fun b => { b with msgHi := c.extractLsb' 32 32 }) fun _ => rfl
  obtain ⟨t, hut, ht⟩ := runsTo_wr_of_idle (s := u) (by rw [hu, hb]) m (r := .msgLo) (v := c.extractLsb' 0 32)
    (f := fun b => { b with msgLo := c.extractLsb' 0 32 }) fun _ => rfl
  exact ⟨t, hsu.append hut, by rw [ht, hu], by rw [ht, hu]; rfl⟩

/-- Settles O50: the key's run, then the message's, each leaving what the other wrote. -/
theorem loadKeyAndLoadMsgPlaceTheOperands : Obligations.LoadKeyAndLoadMsgPlaceTheOperands := by
  intro s m k c hb hk
  obtain ⟨u, hsu, hu, hlen, hkey⟩ := runsTo_loadKey hb m hk
  obtain ⟨t, hut, ht, hmsg⟩ := runsTo_loadMsg (s := u) (by rw [hu, hb]) m c
  refine ⟨{ t with inputs := s.inputs }, hsu.append hut s.inputs, rfl, by rw [ht, hu], by rw [ht, hu], by rw [ht, hu],
    by rw [ht, hu], by rw [ht, hlen], ?_, hmsg⟩
  rw [ht]
  exact hkey

/-! ## Turns of a host program -/

/-- The access a program is about to make is that of its present transaction. -/
theorem nextAccess_of_todo_cons {h : HostProcess} {op : HostOp} {rest : List HostOp} (ht : h.todo = op :: rest) :
    h.nextAccess = op.access h.master := by
  simp [HostProcess.nextAccess, ht]

section
variable {σ : System} {off : Offset} (hal : off.toNat % 4 = 0)
include hal

/-- A host turn at a transaction that writes v to an aligned offset: the step of that write, and the program told of it. -/
theorem turn_host_write {v : Word} (ha : σ.host.nextAccess = some (writeAccess σ.host.master off v)) :
    ∃ t, step (σ.machine.facing (.bus (writeAccess σ.host.master off v))) = .next t
      ∧ σ.turn .host = .next ⟨t, σ.host.receive 0⟩ := by
  obtain ⟨u, hu⟩ := writeReg_answers_next (regAt off) v σ.machine
  have hs := step_write σ.machine σ.host.master v hal
  rw [hu, onNext_next] at hs
  exact ⟨_, hs, by rw [turn_host ha hs, answered_okay, Option.getD_none]⟩

/-- A host turn at a transaction that reads an aligned offset: the step of that read, answered OKAY with the register's
word, and the program given it. -/
theorem turn_host_read (ha : σ.host.nextAccess = some (readAccess σ.host.master off)) :
    ∃ t x, step (σ.machine.facing (.bus (readAccess σ.host.master off))) = .next t
      ∧ t.lastResponse = some ⟨.okay, some x⟩ ∧ σ.turn .host = .next ⟨t, σ.host.receive x⟩ := by
  have hs := step_read σ.machine σ.host.master hal
  exact ⟨_, _, hs, rfl, by rw [turn_host ha hs, answered_okay, Option.getD_some]⟩

end

/-- Settles O57: one access each; what the program makes of the answer is its `receive`. -/
theorem hostTurnPerformsOneTransaction : Obligations.HostTurnPerformsOneTransaction := by
  refine fun σ off rest hal => ⟨fun v ht => ?_, fun ht => ?_, fun mask value ht => ?_⟩
  · obtain ⟨t, hs, hτ⟩ := turn_host_write hal (nextAccess_of_todo_cons ht)
    exact ⟨t, hs, by simpa [HostProcess.receive, ht] using hτ⟩
  · obtain ⟨t, x, hs, hr, hτ⟩ := turn_host_read hal (nextAccess_of_todo_cons ht)
    exact ⟨t, x, hs, hr, by simpa [HostProcess.receive, ht] using hτ⟩
  · obtain ⟨t, x, hs, hr, hτ⟩ := turn_host_read hal (nextAccess_of_todo_cons ht)
    exact ⟨t, x, hs, hr, fun hx => by simpa [HostProcess.receive, ht, hx] using hτ,
      fun hx => by simpa [HostProcess.receive, ht, hx] using hτ⟩

end Sys2Proof.Machine

/-! The statements of 40_bus_access.md: what reads answer, what writes store, clear, lock and ignore, and what changes the
digest. -/

namespace Sys2Proof.Machine

/-! ## The register map -/

/-- The reserved offsets (10_state.md R23) select no register. -/
theorem regAt_of_reserved_offset {off : Offset}
    (h : off = 0x014 ∨ (0x020 ≤ off.toNat ∧ off.toNat ≤ 0x03C) ∨ 0x094 ≤ off.toNat) : regAt off = .reserved := by
  rcases h with rfl | h
  · exact regAt_hole
  · exact regAt_reserved (by omega)

/-- The offset of `DIG[i]` as a number. -/
theorem offset_dig_toNat (i : Fin 5) : (Reg.dig i).offset.toNat = 0x080 + 4 * i.val := by
  simp only [Reg.offset, BitVec.toNat_ofNat]
  omega

/-- The aligned offsets whose writes the lock guards (40_bus_access.md R104). -/
theorem regAt_locked_iff {off : Offset} (ha : off.toNat % 4 = 0) :
    (regAt off).locked = true ↔
      off = 0x004 ∨ off = 0x010 ∨ off = 0x018 ∨ off = 0x01C ∨ (0x040 ≤ off.toNat ∧ off.toNat ≤ 0x07C) := by
  simp only [← BitVec.toNat_inj]
  unfold regAt
  dsimp only
  split_ifs <;> simp [Reg.locked] <;> omega

/-! ## Reads -/

/-- Settles O23: the read answers the word of the register its offset selects. -/
theorem readsAnswerTheRegisterMap : Obligations.ReadsAnswerTheRegisterMap := by
  intro s m off ha
  have hread (r : Reg) (h : off = r.offset) : readReg s.toBlock (regAt off) = readReg s.toBlock r := by
    rw [h, regAt_offset]
  refine ⟨_, readReg s.toBlock (regAt off), step_read s m ha, rfl, hread .id, hread .cmd, hread .status,
    hread .irqEn, fun h => ?_, hread .msgHi, hread .msgLo, fun hlo hhi => ?_, fun i hi => ?_, fun h => ?_⟩
  · rw [hread .keyLen h, readReg, BitVec.toNat_setWidth_of_le (by decide)]
  · rw [regAt_keyw (by omega), readReg]
  · exact hread (.dig i) (BitVec.eq_of_toNat_eq (hi.trans (offset_dig_toNat i).symm))
  · rw [regAt_of_reserved_offset h, readReg]

/-- Bit i of the `STATUS` word (40_bus_access.md R105). -/
theorem Status.toWord_getLsbD (f : Status) (i : Nat) :
    f.toWord.getLsbD i = [f.busy, f.done, f.errCmd, f.errKeyLen, f.errBusy].getD i false := by
  match i with
  | 0 | 1 | 2 | 3 | 4 | i + 5 =>
    unfold Status.toWord
    iterate 5 rw [BitVec.getLsbD_append]
    simp

/-- Bit i of the `IRQ_EN` word (40_bus_access.md R106). -/
theorem IrqEn.toWord_getLsbD (e : IrqEn) (i : Nat) : e.toWord.getLsbD i = [e.doneIe, e.errIe].getD i false := by
  match i with
  | 0 | 1 | i + 2 =>
    unfold IrqEn.toWord
    iterate 2 rw [BitVec.getLsbD_append]
    simp

/-- Settles O24: the two words bit by bit. -/
theorem flagWordsHoldTheFlagsBitByBit : Obligations.FlagWordsHoldTheFlagsBitByBit := by
  intro f e
  simp only [Status.toWord_getLsbD, IrqEn.toWord_getLsbD]
  exact ⟨rfl, rfl, rfl, rfl, rfl, fun i hi => List.getD_eq_default _ _ hi, rfl, rfl,
    fun i hi => List.getD_eq_default _ _ hi⟩

/-! ## Writes at any time -/

/-- Settles O25: the step is the W1C write and its response. -/
theorem statusWriteClearsExactlyTheOnes : Obligations.StatusWriteClearsExactlyTheOnes := by
  intro s m v
  refine ⟨_, step_write s m v (by decide), rfl, rfl, rfl, rfl, ?_⟩
  simp [Status.w1c]

/-- Settles O26: the step is the write of `IRQ_EN` and its response, and the level follows the new enables. -/
theorem irqEnWriteKeepsTheTwoLowBits : Obligations.IrqEnWriteKeepsTheTwoLowBits := by
  intro s m v
  exact ⟨_, step_write s m v (by decide), rfl, rfl, rfl, fun hv hd => irq_iff.2 (.inl ⟨hv, hd⟩)⟩

/-- `ID`, `DIG` and the reserved offsets store nothing (40_bus_access.md R115, R116, R117). -/
theorem writeReg_regAt_ignored {off : Offset}
    (h : off = 0x000 ∨ (0x080 ≤ off.toNat ∧ off.toNat ≤ 0x090) ∨ off = 0x014
      ∨ (0x020 ≤ off.toNat ∧ off.toNat ≤ 0x03C) ∨ 0x094 ≤ off.toNat) (v : Word) (s : State) :
    writeReg (regAt off) v s = .next s := by
  rcases h with rfl | hd | hr
  · rw [regAt_id, writeReg]
  · rw [regAt_dig (by omega), writeReg]
  · rw [regAt_of_reserved_offset hr, writeReg]

/-- Settles O30: an ignored write leaves only its response, and so does a read of a reserved offset. -/
theorem ignoredOffsetsTakeNoWrite : Obligations.IgnoredOffsetsTakeNoWrite := by
  refine fun s m v off ha => ⟨fun h => ?_, fun h => ?_⟩
  · rw [step_write s m v ha, writeReg_regAt_ignored h, onNext_next, respond]
  · rw [step_read s m ha, regAt_of_reserved_offset h, readReg, respond]

/-! ## Writes under the busy lock -/

/-- While busy a write to a locked register sets ERR_BUSY alone (40_bus_access.md R104). -/
theorem writeReg_locked_of_busy {r : Reg} (hl : r.locked = true) (v : Word) {s : State} (hb : s.status.busy = true) :
    writeReg r v s = .next (raiseError .errBusy s) := by
  obtain ⟨t, ht⟩ := writeReg_answers_next r v s
  rcases writeReg_cases ht with ⟨-, -, rfl⟩ | ⟨hu, -⟩ | ⟨hi, -⟩
  · exact ht
  · simp [hl] at hu
  · simp [hb] at hi

/-- A write to a register outside the lock raises no ERR_BUSY. -/
theorem errBusy_of_writeReg_unlocked {r : Reg} {v : Word} {s t : State} (hl : r.locked = false)
    (h : writeReg r v s = .next t) (he : t.status.errBusy = true) : s.status.errBusy = true := by
  cases r with
  | id | dig _ | reserved | irqEn => cases h; exact he
  | status =>
    cases h
    exact (Bool.and_eq_true_iff.1 he).1
  | _ => cases hl

/-- Settles O31: the lock decides by the register alone. -/
theorem lockedWriteWhileBusySetsOnlyErrBusy : Obligations.LockedWriteWhileBusySetsOnlyErrBusy := by
  intro s m v off hb ha
  rw [← regAt_locked_iff ha, Bool.not_eq_true]
  refine ⟨fun hl => ?_, fun hl => ?_⟩
  · rw [step_write s m v ha, writeReg_locked_of_busy hl v hb]
    rfl
  · obtain ⟨t, ht⟩ := writeReg_answers_next (regAt off) v s
    exact ⟨respond _ _ t, by rw [step_write s m v ha, ht, onNext_next], fun he => errBusy_of_writeReg_unlocked hl ht he⟩

/-- The step of a write to a register that takes the registers to b, the lock permitting. -/
theorem step_write_unlessBusy {r : Reg} {v : Word} {s : State} {b : Block} (m : Nat)
    (h : writeReg r v s = .next (unlessBusy s { s with toBlock := b })) :
    ∃ t, step (s.facing (.bus (writeAccess m r.offset v))) = .next t
      ∧ t.log = (writeAccess m r.offset v, ⟨.okay, none⟩) :: s.log ∧ t.inputs = s.inputs
      ∧ (s.status.busy = true → t.toBlock = { s.toBlock with status := { s.status with errBusy := true } })
      ∧ (s.status.busy = false → t.toBlock = b) := by
  refine ⟨_, by rw [step_write s m v (offset_aligned r), regAt_offset, h, onNext_next], ?_⟩
  cases hb : s.status.busy with
  | true => simp [unlessBusy_of_busy _ hb, raiseError, Status.setError]
  | false => simp [unlessBusy_of_idle _ hb]

/-- Settles O27: what is stored is `keyLenOfWord` of the value. -/
theorem keyLenWriteStoresALegalLength : Obligations.KeyLenWriteStoresALegalLength := by
  intro s m v
  obtain ⟨t, hs, hlog, hin, hbusy, hidle⟩ := step_write_unlessBusy (r := .keyLen) (v := v) (s := s) m rfl
  refine ⟨t, hs, hlog, hin, hbusy, fun hb => by rw [hidle hb], fun hb hv => ?_, fun hb hv => ?_⟩
  · simpa [hidle hb] using keyLenOfWord_ofNat hv
  · rw [hidle hb]
    exact if_neg (Nat.not_le_of_lt hv)

/-- Settles O29: what is stored is the vector of key words with word i set. -/
theorem keyWordWriteStoresOneWord : Obligations.KeyWordWriteStoresOneWord := by
  intro s m v i
  obtain ⟨t, hs, hlog, hin, hbusy, hidle⟩ := step_write_unlessBusy (r := .keyw i) (v := v) (s := s) m rfl
  refine ⟨t, hs, hlog, hin, hbusy, fun hb => ?_⟩
  rw [hidle hb]
  exact ⟨rfl, Vector.getElem_set_self i.isLt, fun j hj => Vector.getElem_set_ne i.isLt j.isLt (Fin.val_ne_of_ne hj.symm)⟩

/-- Settles O28: the same write under the lock, once for each of the two registers. -/
theorem messageWriteStoresTheWord : Obligations.MessageWriteStoresTheWord := by
  intro s m v
  obtain ⟨t, ht, htlog, htin, htbusy, htidle⟩ := step_write_unlessBusy (r := .msgHi) (v := v) (s := s) m rfl
  obtain ⟨u, hu, hulog, huin, hubusy, huidle⟩ := step_write_unlessBusy (r := .msgLo) (v := v) (s := s) m rfl
  exact ⟨t, u, ht, hu, htlog, htin, hulog, huin, fun hb => ⟨htbusy hb, hubusy hb⟩, fun hb => ⟨htidle hb, huidle hb⟩⟩

/-! ## The digest -/

/-- The write of a word that decodes to a command is a write of the command's own word to `CMD`. -/
theorem State.facesWrite.command {s : State} {v : Word} {i : Instr} (hw : s.facesWrite .cmd v)
    (hd : decode v = .instr i) : ∃ m, s.nextEvent.access = some (writeAccess m 0x004 (encode i)) := by
  obtain rfl := eq_encode_of_decode hd
  exact hw.access (by simp)

/-- Settles O44: of the changes to the registers only reset, completion, acceptance and ZEROIZE touch `DIG`. -/
theorem digestSurvivesUntilNextCommandOrReset : Obligations.DigestSurvivesUntilNextCommandOrReset := by
  intro s t h hne
  have hstep := step_blockStep h
  generalize t.toBlock = b at hstep hne ⊢
  cases hstep with
  | reset he => exact .inl ⟨⟨_, he⟩, rfl⟩
  | completed he hb hp => exact .inr (.inl ⟨he, hb, hp⟩)
  | hmacAccepted hw hb hd =>
    obtain ⟨m, ha⟩ := hw.command hd
    exact .inr (.inr ⟨hb, rfl, m, _, ha, .inl rfl⟩)
  | zeroized hw hb hd =>
    obtain ⟨m, ha⟩ := hw.command hd
    exact .inr (.inr ⟨hb, rfl, m, _, ha, .inr rfl⟩)
  | _ => exact absurd rfl hne

end Sys2Proof.Machine

/-! The statements of 41_commands.md: the meaning of each command, the order of the checks, what the digest depends on,
completion, and that no step is stuck. -/

namespace Sys2Proof.Machine

/-! ## The commands -/

theorem exec_nop_of_idle {s : State} (hb : s.status.busy = false) : exec .nop s = .next s :=
  congrArg _ (unlessBusy_of_idle _ hb)

/-- The two outcomes of `HMAC` on an idle block (41_commands.md R130). -/
theorem exec_hmac_of_idle {s : State} (hb : s.status.busy = false) :
    exec .hmac s = .next (if Config.keyMax < s.keyLen.toNat then raiseError .errKeyLen s else acceptHmac s) :=
  congrArg _ (unlessBusy_of_idle _ hb)

theorem exec_hmac_accepted {s : State} (hb : s.status.busy = false) (hk : s.keyLen.toNat ≤ 64) :
    exec .hmac s = .next (acceptHmac s) :=
  (exec_hmac_of_idle hb).trans (congrArg _ (if_neg (Nat.not_lt_of_le hk)))

theorem exec_hmac_rejected {s : State} (hb : s.status.busy = false) (hk : 64 < s.keyLen.toNat) :
    exec .hmac s = .next (raiseError .errKeyLen s) :=
  (exec_hmac_of_idle hb).trans (congrArg _ (if_pos hk))

theorem exec_zeroize_of_idle {s : State} (hb : s.status.busy = false) : exec .zeroize s = .next (zeroize s) :=
  congrArg _ (unlessBusy_of_idle _ hb)

/-- An error bit set twice is set once. -/
@[simp] theorem raiseError_raiseError (c : ErrorCause) (s : State) :
    raiseError c (raiseError c s) = raiseError c s := by
  cases c <;> rfl

@[simp] theorem zeroize_zeroize (s : State) : zeroize (zeroize s) = zeroize s := rfl

/-- Settles O6: idle, NOP is the identity; busy, it is rejected as every command is. -/
theorem nopChangesNothingUnlessBusy : Obligations.NopChangesNothingUnlessBusy :=
  fun _ => ⟨exec_nop_of_idle, exec_of_busy .nop⟩

/-- Settles O7: the frame of acceptance and of the two rejections. -/
theorem hmacFixesTheDigestOrSetsOneErrorBit : Obligations.HmacFixesTheDigestOrSetsOneErrorBit := by
  refine fun s => ⟨fun hb hk => ⟨acceptHmac s, exec_hmac_accepted hb hk, rfl, fun i => ?_, ?_⟩, exec_of_busy .hmac,
    exec_hmac_rejected⟩
  · rw [acceptHmac_dig]
    exact Vector.getElem_replicate i.isLt
  · simp

/-- Settles O8: the frame of the wipe; a second ZEROIZE is the second of two wipes or of two rejections. -/
theorem zeroizeWipesUnlessBusy : Obligations.ZeroizeWipesUnlessBusy := by
  refine fun s => ⟨exec_of_busy .zeroize, fun hb => ⟨zeroize s, exec_zeroize_of_idle hb, ?_⟩, ?_⟩
  · simp [hb]
  · cases hb : s.status.busy with
    | true =>
      exact ⟨_, exec_of_busy .zeroize hb, by rw [exec_of_busy .zeroize (by simp [hb]), raiseError_raiseError]⟩
    | false => exact ⟨_, exec_zeroize_of_idle hb, by rw [exec_zeroize_of_idle (by simp [hb]), zeroize_zeroize]⟩

/-! ## What the digest depends on -/

theorem keyBytes_congr {b c : Block} {n : Nat} (h : ∀ j, j < n → b.keyBuffer[j]? = c.keyBuffer[j]?) :
    b.keyBytes n = c.keyBytes n := by
  refine List.ext_getElem? fun j => ?_
  simp only [Block.keyBytes, List.getElem?_take]
  split
  · exact h j ‹_›
  · rfl

/-- Settles O9: acceptance fixes the digest of the key bytes and the message, which are the same in both states. -/
theorem digestDependsOnOperandsOnly : Obligations.DigestDependsOnOperandsOnly := by
  intro s u hs hu hk hlen hkey hhi hlo
  have hdig : s.hmacDigest = u.hmacDigest := by
    simp only [Block.hmacDigest, Block.message, hlen, hhi, hlo, keyBytes_congr hkey]
  refine ⟨acceptHmac s, acceptHmac u, exec_hmac_accepted hs hk, exec_hmac_accepted hu (hlen ▸ hk), rfl, ?_⟩
  rw [acceptHmac_pending, acceptHmac_pending, hdig]

/-- Zero bytes at the end of a key are the zero bytes the padding would put there (42_sha1_hmac.md R158). -/
theorem padKey_append_zeros {k : List Byte} {z : Nat} (h : k.length + z ≤ 64) :
    padKey (k ++ List.replicate z 0#8) = padKey k := by
  have hz : z + (Config.blockBytes - (k.length + z)) = Config.blockBytes - k.length := by
    rw [Config.blockBytes]
    omega
  simp only [padKey, List.append_assoc, List.replicate_append_replicate, List.length_append, List.length_replicate, hz]

/-- Settles O18: HMAC uses its key only padded to a block. -/
theorem zeroBytesAppendedToKeyChangeNothing : Obligations.ZeroBytesAppendedToKeyChangeNothing := by
  intro k m z h
  simp only [hmacSha1, innerKey, outerKey, padKey_append_zeros h]

/-! ## A write to `CMD` -/

theorem commandWrite_of_busy (v : Word) {s : State} (hb : s.status.busy = true) :
    commandWrite v s = .next (raiseError .errBusy s) :=
  if_pos hb

theorem commandWrite_of_reserved {v : Word} {s : State} (hb : s.status.busy = false) (hv : 3 ≤ v.toNat) :
    commandWrite v s = .next (raiseError .errCmd s) := by
  have hres := (decode_isReserved_iff v).2 hv
  cases hd : decode v with
  | instr i => simp [hd] at hres
  | reserved r => simp [commandWrite, hb, hd]

/-- The check of `BUSY` before decoding is the one every command makes itself (41_commands.md R130). -/
theorem commandWrite_of_decode {v : Word} {i : Instr} (hd : decode v = .instr i) (s : State) :
    commandWrite v s = exec i s := by
  cases hb : s.status.busy with
  | true => rw [commandWrite_of_busy v hb, exec_of_busy i hb]
  | false => simp [commandWrite, hb, hd]

/-- The step of an aligned write to `CMD`. -/
theorem step_command (s : State) (m : Nat) (v : Word) :
    step (s.facing (.bus (writeAccess m 0x004 v)))
      = onNext (respond (writeAccess m 0x004 v) ⟨.okay, none⟩) (commandWrite v s) := by
  rw [step_write s m v (by decide), regAt_cmd, writeReg]

/-- Settles O11: the step is the command write, and that is the command. -/
theorem stepRunsTheDecodedCommand : Obligations.StepRunsTheDecodedCommand :=
  fun s m w i hd => by rw [step_command, commandWrite_of_decode hd]

/-- Settles O10: the command write answers one state, and each check that applies says which. -/
theorem commandWriteChecksInOrder : Obligations.CommandWriteChecksInOrder := by
  intro s m v
  obtain ⟨u, hu⟩ := commandWrite_answers_next v s
  obtain ⟨hin, hlog, -⟩ := writeReg_frame (r := .cmd) hu
  have hblock {w : State} (h : commandWrite v s = .next w) : u.toBlock = w.toBlock := by
    rw [h] at hu
    cases hu
    rfl
  refine ⟨respond _ _ u, by rw [step_command, hu, onNext_next], by rw [respond_log, hlog], hin,
    fun hb => hblock (w := raiseError .errBusy s) (commandWrite_of_busy v hb),
    fun hb hv => hblock (w := raiseError .errCmd s) (commandWrite_of_reserved hb hv),
    fun hb hv => hblock ?_, fun hb hv => hblock ?_, fun hb hv hk => hblock (w := raiseError .errKeyLen s) ?_,
    fun hb hv hk => hblock ?_⟩
  · rw [hv, commandWrite_of_decode (i := .nop) (by decide), exec_nop_of_idle hb]
  · rw [hv, commandWrite_of_decode (i := .zeroize) (by decide), exec_zeroize_of_idle hb]
  · rw [hv, commandWrite_of_decode (i := .hmac) (by decide), exec_hmac_rejected hb hk]
  · rw [hv, commandWrite_of_decode (i := .hmac) (by decide), exec_hmac_accepted hb hk]

/-! ## The engine -/

theorem engineTurn_of_pending {s : State} {d : Vector Word 5} (hb : s.status.busy = true) (hp : s.pending = some d) :
    engineTurn s = .next (completeWith d s) := by
  simp [engineTurn, hb, hp]

theorem engineTurn_of_idle {s : State} (hb : s.status.busy = false) : engineTurn s = .next s := by
  simp [engineTurn, hb]

/-- Every event is answered, the engine's turn where a running command has its digest (41_commands.md R140). -/
theorem perform_answers_next (e : Event) {s : State}
    (h : e = .engine → s.status.busy = true → s.pending.isSome = true) : ∃ t, perform e s = .next t := by
  cases e with
  | bus a => exact busAccess_answers_next a s
  | mem a =>
    cases hd : decodeAddress a with
    | some w =>
      rw [perform_mem_of_some hd]
      exact busAccess_answers_next w s
    | none => exact ⟨s, perform_mem_of_none hd s⟩
  | engine =>
    cases hb : s.status.busy with
    | true =>
      obtain ⟨d, hd⟩ := Option.isSome_iff_exists.1 (h rfl hb)
      exact ⟨_, engineTurn_of_pending hb hd⟩
    | false => exact ⟨s, engineTurn_of_idle hb⟩
  | reset held => exact ⟨_, rfl⟩

/-- Settles O49: by `Inv` a running command has its digest. -/
theorem noStepIsStuck : Obligations.NoStepIsStuck := by
  intro s hs
  rw [step_eq_perform]
  exact perform_answers_next _ fun _ hb => hs.pending_iff_busy.trans hb

/-! ## While a command runs -/

/-- An event leaves the events that come after it. -/
theorem perform_inputs {e : Event} {s t : State} (h : perform e s = .next t) : t.inputs = s.inputs := by
  rcases perform_cases h with ⟨a, -, ha⟩ | ⟨a, -, -, rfl⟩ | ⟨-, ht⟩ | ⟨held, -, rfl⟩
  · rcases busAccess_cases ha with ⟨-, rfl⟩ | ⟨-, -, rfl⟩ | ⟨-, v, u, -, hu, rfl⟩
    · rfl
    · rfl
    · exact (writeReg_frame hu).1
  · rfl
  · rcases engineTurn_cases ht with ⟨-, d, -, rfl⟩ | ⟨-, rfl⟩ <;> rfl
  · rw [resetStep_inputs]

/-- While a command runs only completion and reset change more than flags and interrupt enables, and only they end it. -/
theorem BlockStep.of_busy {s : State} {b : Block} (h : BlockStep s b) (hb : s.status.busy = true)
    (hr : ∀ held, s.nextEvent ≠ .reset held) (he : s.nextEvent ≠ .engine) :
    b.status.busy = true ∧ b = { s.toBlock with status := b.status, irqEn := b.irqEn } := by
  cases h with
  | unchanged | lockedWrite | statusWrite | irqEnWrite => exact ⟨hb, rfl⟩
  | reset hre => exact absurd hre (hr _)
  | completed hen => exact absurd hen he
  | reservedCommand _ hi | hmacRejected _ hi | hmacAccepted _ hi | zeroized _ hi | keyLenWrite _ hi | msgHiWrite _ hi
  | msgLoWrite _ hi | keyWordWrite _ hi => simp [hb] at hi

/-- A step other than completion and reset is answered and leaves a running command running, its operands, its digest and
`DIG` as they are (41_commands.md R135, R140). -/
theorem step_of_busy {s : State} (hb : s.status.busy = true) (hr : ∀ held, s.nextEvent ≠ .reset held)
    (he : s.nextEvent ≠ .engine) :
    ∃ t, step s = .next t ∧ t.inputs = s.inputs.tail ∧ t.status.busy = true
      ∧ t.toBlock = { s.toBlock with status := t.status, irqEn := t.irqEn } := by
  obtain ⟨t, ht⟩ := perform_answers_next s.nextEvent (s := { s with inputs := s.inputs.tail }) fun h => absurd h he
  have hstep := (step_eq_perform s).trans ht
  exact ⟨t, hstep, perform_inputs ht, (step_blockStep hstep).of_busy hb hr he⟩

/-- Settles O38: the engine's turn in its two cases, and every other step of a busy block but reset. -/
theorem completionPublishesAndWipes : Obligations.CompletionPublishesAndWipes := by
  refine fun s => ⟨fun d hb hp => ⟨completeWith d s, engineTurn_of_pending hb hp, ?_⟩, engineTurn_of_idle,
    fun e hb hr he => ?_⟩
  · simp
  · obtain ⟨t, ht, -, htb, hblock⟩ := step_of_busy (s := s.facing e) hb hr he
    refine ⟨t, ht, htb, ?_⟩
    rw [hblock]
    exact ⟨rfl, rfl, rfl, rfl, rfl, rfl⟩

/-- A run is its first step and the rest. -/
theorem run_succ {s t : State} (n : Nat) (h : step s = .next t) :
    Host.Core.run Sys2Proof.core (n + 1) s = Host.Core.run Sys2Proof.core n t := by
  have hs : Sys2Proof.core.step s = .next t := h
  simp only [Host.Core.run, hs]

/-- An event other than the engine's turn comes from the list of events. -/
theorem inputs_of_nextEvent {s : State} (he : s.nextEvent ≠ .engine) : s.inputs = s.nextEvent :: s.inputs.tail := by
  cases hin : s.inputs with
  | nil => exact absurd (by rw [State.nextEvent, hin, List.headD_nil]) he
  | cons e es => rw [State.nextEvent, hin, List.headD_cons, List.tail_cons]

/-- Without a reset to come the next step completes the command, or leaves it running with one event less to come. -/
theorem run_completes {s : State} {d : Vector Word 5} (hb : s.status.busy = true) (hp : s.pending = some d)
    (hr : ∀ e ∈ s.inputs, ∀ held, e ≠ .reset held) :
    ∃ (k : Nat) (t : State), k ≤ s.inputs.length + 1 ∧ Host.Core.run Sys2Proof.core k s = .next t
      ∧ t.status.busy = false ∧ t.status.done = true ∧ t.dig = d := by
  by_cases he : s.nextEvent = .engine
  · have hstep : step s = .next (completeWith d { s with inputs := s.inputs.tail }) := by
      rw [step_eq_perform, he]
      exact engineTurn_of_pending hb hp
    exact ⟨1, _, by omega, run_succ 0 hstep, rfl, rfl, rfl⟩
  · have hin := inputs_of_nextEvent he
    obtain ⟨u, hstep, hu, hub, hblock⟩ := step_of_busy hb (hr _ (by rw [hin]; exact List.mem_cons_self)) he
    have hlt : u.inputs.length < s.inputs.length := by
      rw [hu, hin]
      simp
    obtain ⟨k, t, hk, ht, hdone⟩ := run_completes hub (by rw [hblock, hp])
      fun e hmem => hr e (List.mem_of_mem_tail (hu ▸ hmem))
    exact ⟨k + 1, t, by omega, (run_succ k hstep).trans ht, hdone⟩
termination_by s.inputs.length

/-- Settles O40: the run of `run_completes`. -/
theorem completionIsEventual : Obligations.CompletionIsEventual := fun _ _ => run_completes

/-! ## The end of a run -/

theorem runOver_iff {m : Nat} {s : State} :
    s.runOver m = true ↔ s.status.busy = false ∧ ∀ e ∈ s.inputs, ∀ a ∈ e.accesses, a.master ≠ m := by
  simp [State.runOver, State.madeLastAccess, and_comm]

/-- Settles O39: without an event to come the step is the engine's turn, idle with `BUSY` = 0. -/
theorem machineIsIdleWhenTheRunIsOver : Obligations.MachineIsIdleWhenTheRunIsOver := by
  refine ⟨fun m s => runOver_iff, fun s hb hin => ⟨fun m => runOver_iff.2 ⟨hb, by simp [hin]⟩, ?_⟩⟩
  rw [step, hin]
  exact engineTurn_of_idle hb

end Sys2Proof.Machine

/-! The statements of 42_sha1_hmac.md: words and rotation, the round functions and constants, padding and blocks, the
schedule and the rounds of a compression, and HMAC as four compressions. -/

namespace Sys2Proof.Machine

/-! ## Words, rotation, round functions and constants -/

theorem toNat_append_eq_mul_add {u v : Nat} (x : BitVec u) (y : BitVec v) :
    (x ++ y).toNat = x.toNat * 2 ^ v + y.toNat := by
  rw [BitVec.toNat_append, ← Nat.shiftLeft_add_eq_or_of_lt y.isLt, Nat.shiftLeft_eq]

theorem wordOf_toNat (b0 b1 b2 b3 : Byte) :
    (wordOf b0 b1 b2 b3).toNat = b0.toNat * 2 ^ 24 + b1.toNat * 2 ^ 16 + b2.toNat * 2 ^ 8 + b3.toNat := by
  simp only [wordOf, toNat_append_eq_mul_add]
  omega

theorem rotl_eq_rotateLeft {n : Nat} (hn : n < 32) (x : Word) : rotl n x = x.rotateLeft n := by
  rw [rotl, BitVec.rotateLeft_def, Nat.mod_eq_of_lt hn]

/-- Settles O19: the value of a word of four bytes, its bytes, and the rotation as two shifts. -/
theorem wordsAreBigEndianAndRotl : Obligations.WordsAreBigEndianAndRotl :=
  ⟨fun b0 b1 b2 b3 => ⟨wordOf_toNat b0 b1 b2 b3, bytesOf_wordOf b0 b1 b2 b3⟩, fun _ x _ hn => rotl_eq_rotateLeft hn x⟩

/-- Settles O12: each range of t takes its own branch of the two definitions. -/
theorem roundFunctionsAndConstants : Obligations.RoundFunctionsAndConstants := by
  refine ⟨rfl, fun t x y z => ?_⟩
  simp only [roundFunction, roundConstant]
  refine ⟨fun h19 => ?_, fun h20 h39 => ?_, fun h40 h59 => ?_, fun h60 h79 => ?_⟩
  · simp [h19]
  · simp [show ¬ t ≤ 19 by omega, h39]
  · simp [show ¬ t ≤ 19 by omega, show ¬ t ≤ 39 by omega, h59]
  · simp [show ¬ t ≤ 19 by omega, show ¬ t ≤ 39 by omega, show ¬ t ≤ 59 by omega]

/-! ## Padding and parsing -/

theorem padZeros_fills (n : Nat) : (n + 1 + padZeros n) % 64 = 56 := by
  rw [padZeros]
  omega

theorem padZeros_least {n j : Nat} (hj : j < padZeros n) : (n + 1 + j) % 64 ≠ 56 := by
  rw [padZeros] at hj
  omega

theorem pad_length (m : List Byte) : (pad m).length = m.length + 1 + padZeros m.length + 8 := by
  simp only [pad, List.length_append, List.length_singleton, List.length_replicate, bytesOf64_length]

/-- Settles O13: `padZeros` fills a block up to its last 8 bytes, and no smaller number does. -/
theorem paddingFillsWholeBlocks : Obligations.PaddingFillsWholeBlocks := by
  refine fun m _ => ⟨padZeros m.length, rfl, padZeros_fills _, fun _ => padZeros_least, ?_⟩
  have hfill := padZeros_fills m.length
  rw [pad_length]
  omega

/-- Cutting takes a block off the front. -/
theorem blocksOf_append {b : List Byte} (hb : b.length = 64) (p : List Byte) :
    blocksOf (b ++ p) = b :: blocksOf p := by
  have hcount : (b ++ p).length / 64 = p.length / 64 + 1 := by
    rw [List.length_append, hb]
    omega
  have hdrop (i : Nat) : (b ++ p).drop (64 * (i + 1)) = p.drop (64 * i) := by
    rw [Nat.mul_succ, Nat.add_comm, ← hb, List.drop_length_add_append]
  simp only [blocksOf, Config.blockBytes, hcount, List.range_succ_eq_map, List.map_cons, List.map_map,
    Function.comp_def, hdrop]
  rw [Nat.mul_zero, List.drop_zero, ← hb, List.take_left]

/-- A row of blocks is cut into those blocks (42_sha1_hmac.md R155). -/
theorem blocksOf_flatten {blks : List (List Byte)} (h : ∀ b ∈ blks, b.length = 64) :
    blocksOf blks.flatten = blks := by
  induction blks with
  | nil => rfl
  | cons b bs ih =>
    rw [List.flatten_cons, blocksOf_append (h b List.mem_cons_self), ih fun c hc => h c (List.mem_cons_of_mem _ hc)]

theorem sha1_of_blocks {m : List Byte} {blks : List (List Byte)} (hp : pad m = blks.flatten)
    (hb : ∀ b ∈ blks, b.length = 64) : sha1 m = (blks.foldl compress initialChain).bytes := by
  rw [sha1, hp, blocksOf_flatten hb]

/-- Word t of a byte string is the word of the four bytes from 4 t on. -/
theorem getElem?_wordsOf {p : List Byte} {t : Nat} (ht : 4 * t + 4 ≤ p.length) :
    (wordsOf p)[t]? = some (leadingWord (p.drop (4 * t))) := by
  induction t generalizing p with
  | zero =>
    match p, ht with
    | b0 :: b1 :: b2 :: b3 :: rest, _ => simp [wordsOf, leadingWord]
  | succ t ih =>
    match p, ht with
    | b0 :: b1 :: b2 :: b3 :: rest, ht =>
      have hrest : 4 * t + 4 ≤ rest.length := by
        simp only [List.length_cons] at ht
        omega
      rw [wordsOf, List.getElem?_cons_succ, ih hrest]
      rfl

theorem leadingWord_drop (p : List Byte) (i : Nat) :
    leadingWord (p.drop i) = wordOf (p.getD i 0) (p.getD (i + 1) 0) (p.getD (i + 2) 0) (p.getD (i + 3) 0) := by
  simp [leadingWord]

/-- Settles O14: a row of blocks is cut into those blocks, and a block into the leading words of its fours of bytes. -/
theorem sha1FoldsTheBlocksOfThePaddedMessage : Obligations.Sha1FoldsTheBlocksOfThePaddedMessage := by
  refine ⟨fun m blks hp hb => ⟨?_, sha1_of_blocks hp hb, sha1_length m⟩, fun blk hb => ⟨?_, fun t ht => ?_⟩⟩
  · rw [hp, blocksOf_flatten hb]
  · rw [wordsOf_length, hb]
  · rw [getElem?_wordsOf (by omega), leadingWord_drop]

/-! ## The message schedule -/

/-- New words are put before the ones a schedule has. -/
theorem suffix_extendSchedule (n : Nat) (w : List Word) : w <:+ extendSchedule n w := by
  induction n generalizing w with
  | zero => exact List.suffix_refl w
  | succ n ih => exact (List.suffix_cons _ w).trans (ih _)

/-- The recurrence of R156 for each of the n new words, the newest being word 0. -/
theorem extendSchedule_recurrence {n j : Nat} (hj : j < n) (w : List Word) :
    (extendSchedule n w).getD j 0 = rotl 1 ((extendSchedule n w).getD (j + 3) 0
      ^^^ (extendSchedule n w).getD (j + 8) 0 ^^^ (extendSchedule n w).getD (j + 14) 0
      ^^^ (extendSchedule n w).getD (j + 16) 0) := by
  induction n generalizing w with
  | zero => exact absurd hj (Nat.not_lt_zero j)
  | succ n ih =>
    rw [extendSchedule]
    obtain hlt | rfl := Nat.lt_succ_iff_lt_or_eq.1 hj
    · exact ih hlt _
    · refine (extendSchedule_getD j _ 0).trans ?_
      simp only [extendSchedule_getD, List.getD_cons_zero, List.getD_cons_succ]

theorem schedule_length {m : List Word} (hm : m.length = 16) : (schedule m).length = 80 := by
  rw [schedule, List.length_reverse, extendSchedule_length, List.length_reverse, hm]

theorem prefix_schedule (m : List Word) : m <+: schedule m := by
  simpa [schedule] using List.reverse_prefix.2 (suffix_extendSchedule 64 m.reverse)

/-- The schedule is the extended block words read from the oldest on. -/
theorem schedule_getD {m : List Word} (hm : m.length = 16) {t : Nat} (ht : t < 80) :
    (schedule m).getD t 0 = (extendSchedule 64 m.reverse).getD (79 - t) 0 := by
  have hlen : (extendSchedule 64 m.reverse).length = 80 := by
    rw [extendSchedule_length, List.length_reverse, hm]
  rw [schedule, List.getD_eq_getElem?_getD, List.getElem?_reverse (by omega), hlen, List.getD_eq_getElem?_getD]

/-- Settles O15: the block's words begin the schedule, and d words back in it are d words on in
`extendSchedule`, where the recurrence holds. -/
theorem scheduleFollowsItsRecurrence : Obligations.ScheduleFollowsItsRecurrence := by
  refine fun m hm => ⟨schedule_length hm, fun t ht => ?_, fun t h16 h80 => ?_⟩
  · obtain ⟨later, hs⟩ := prefix_schedule m
    rw [← hs, List.getElem?_append_left (by omega)]
  · have back (d : Nat) (hd : d ≤ 16) :
        (schedule m).getD (t - d) 0 = (extendSchedule 64 m.reverse).getD (79 - t + d) 0 := by
      rw [schedule_getD hm (by omega), show 79 - (t - d) = 79 - t + d by omega]
    rw [schedule_getD hm h80, extendSchedule_recurrence (by omega), back 3 (by decide), back 8 (by decide),
      back 14 (by decide), back 16 (by decide)]

/-! ## The rounds of a compression -/

theorem roundsFrom_append (t : Nat) (ws us : List Word) (v : Chain) :
    roundsFrom t (ws ++ us) v = roundsFrom (t + ws.length) us (roundsFrom t ws v) := by
  induction ws generalizing t v with
  | nil => rfl
  | cons w ws ih =>
    rw [List.cons_append, roundsFrom, ih, roundsFrom, List.length_cons, Nat.add_right_comm, Nat.add_assoc]

/-- The working variables (a .. e) after the first t rounds over the schedule ws (42_sha1_hmac.md R161). -/
def workingVariables (ws : List Word) (h : Chain) (t : Nat) : Chain := roundsFrom 0 (ws.take t) h

theorem workingVariables_succ {ws : List Word} {t : Nat} (ht : t < ws.length) (h : Chain) :
    workingVariables ws h (t + 1) = sha1Round t (ws.getD t 0) (workingVariables ws h t) := by
  rw [workingVariables, ← List.take_concat_get' ws t ht, roundsFrom_append, List.length_take_of_le ht.le, Nat.zero_add,
    List.getD_eq_getElem _ _ ht]
  rfl

/-- Settles O16: the sequence is the working variables over the block's schedule, each got from the last by one round. -/
theorem compressRunsEightyRounds : Obligations.CompressRunsEightyRounds := by
  intro h blk hb
  have hlen : (schedule (wordsOf blk)).length = 80 := schedule_length (by rw [wordsOf_length, hb])
  refine ⟨workingVariables (schedule (wordsOf blk)) h, rfl, fun t ht => ?_, ?_⟩
  · rw [workingVariables_succ (hlen ▸ ht)]
    exact ⟨rfl, rfl, rfl, rfl, rfl⟩
  · rw [workingVariables, List.take_of_length_le hlen.le]
    rfl

/-! ## HMAC -/

/-- The last block of a padded message that is one block and then m, of at most 55 bytes: all of m is in it
(42_sha1_hmac.md R163, blocks 2 and 4). -/
def lastBlock (m : List Byte) : List Byte :=
  m ++ [0x80#8] ++ List.replicate (55 - m.length) 0#8 ++ bytesOf64 (BitVec.ofNat 64 (8 * (64 + m.length)))

theorem lastBlock_length {m : List Byte} (hm : m.length ≤ 55) : (lastBlock m).length = 64 := by
  simp only [lastBlock, List.length_append, List.length_singleton, List.length_replicate, bytesOf64_length]
  omega

theorem pad_block_append {b m : List Byte} (hb : b.length = 64) (hm : m.length ≤ 55) :
    pad (b ++ m) = [b, lastBlock m].flatten := by
  have hz : padZeros (64 + m.length) = 55 - m.length := by
    rw [padZeros]
    omega
  simp [pad, lastBlock, hb, hz]

/-- SHA-1 of one block and at most 55 bytes more is two compressions. -/
theorem sha1_block_append {b m : List Byte} (hb : b.length = 64) (hm : m.length ≤ 55) :
    sha1 (b ++ m) = (compress (compress initialChain b) (lastBlock m)).bytes := by
  have hblocks : ∀ c ∈ [b, lastBlock m], c.length = 64 := by simp [hb, lastBlock_length hm]
  rw [sha1_of_blocks (pad_block_append hb hm) hblocks, List.foldl_cons, List.foldl_cons, List.foldl_nil]

/-- Settles O17: the inner and the outer hash are of a key block and less than a block more, so two compressions each. -/
theorem hmacIsFourCompressions : Obligations.HmacIsFourCompressions := by
  intro k m hk hm k0 hi1 hi2 ho1 ho2
  have h72 : bytesOf64 (BitVec.ofNat 64 (8 * (64 + 8))) = [0, 0, 0, 0, 0, 0, 0x02, 0x40] := by decide
  have h84 : bytesOf64 (BitVec.ofNat 64 (8 * (64 + 20))) = [0, 0, 0, 0, 0, 0, 0x02, 0xA0] := by decide
  have hinner : sha1 (innerKey k ++ m) = hi2.bytes := by
    rw [sha1_block_append (innerKey_length hk) (by omega), lastBlock, hm, h72]
    rfl
  have hlen : hi2.bytes.length = 20 := Chain_bytes_length hi2
  rw [hmacSha1, hinner, sha1_block_append (outerKey_length hk) (by omega), lastBlock, hlen, h84]
  rfl

end Sys2Proof.Machine

/-! The statements of 48_host_reference.md: the host's functions without the block, `BlockMac` as a run of its events,
and the host's programs beside the block under a schedule of turns. -/

namespace Sys2Proof.Machine

/-! ## Base32 -/

/-- One byte per eight bits (48_host_reference.md R183). -/
theorem bytesOfBits_length (bs : List Bool) : (bytesOfBits bs).length = bs.length / 8 := by
  induction bs using bytesOfBits.induct with
  | case1 b7 b6 b5 b4 b3 b2 b1 b0 rest ih =>
    simp only [bytesOfBits, List.length_cons, ih]
    omega
  | case2 bs h =>
    have hlt : bs.length < 8 := by
      match bs, h with
      | [], _ | [_], _ | [_, _], _ | [_, _, _], _ | [_, _, _, _], _ | [_, _, _, _, _], _ | [_, _, _, _, _, _], _
      | [_, _, _, _, _, _, _], _ => simp
      | _ :: _ :: _ :: _ :: _ :: _ :: _ :: _ :: _, h => exact absurd rfl (h _ _ _ _ _ _ _ _ _)
    rw [Nat.div_eq_of_lt hlt, bytesOfBits.eq_2 bs h]
    rfl

/-- Five bits per character. -/
theorem length_flatMap_bitsOf5 {α : Type} (f : α → BitVec 5) (l : List α) :
    (l.flatMap fun c => bitsOf5 (f c)).length = 5 * l.length := by
  simp [List.length_flatMap, bitsOf5, mul_comm]

/-- What the host accepts is its data characters, then its padding (48_host_reference.md R182). -/
theorem base32Decode_eq_ok {s : List Char} {k : List Byte} (h : base32Decode s = .ok k) :
    base32Valid s = true ∧ k = bytesOfBits ((base32Data s).flatMap fun c => bitsOf5 ((base32Value c).getD 0)) := by
  unfold base32Decode at h
  split at h
  · cases h
    exact ⟨‹_›, rfl⟩
  · cases h

/-- Where only `=` follows the data, the data is what is not `=`. -/
theorem filter_eq_base32Data {s : List Char} (h : (base32Padding s).all (· == '=') = true) :
    s.filter (· != '=') = base32Data s := by
  have hdata : (base32Data s).filter (· != '=') = base32Data s :=
    List.filter_eq_self.2 fun _ => List.mem_takeWhile_imp
  have hpad : (base32Padding s).filter (· != '=') = [] :=
    List.filter_eq_nil_iff.2 fun c hc => by simpa using List.all_eq_true.1 h c hc
  calc s.filter (· != '=') = (base32Data s ++ base32Padding s).filter (· != '=') := by
        rw [base32Data, base32Padding, List.takeWhile_append_dropWhile]
    _ = base32Data s := by rw [List.filter_append, hdata, hpad, List.append_nil]

/-- Settles O52: five bits a character, eight bits a byte. -/
theorem base32YieldsFiveEighthsOfItsCharacters : Obligations.Base32YieldsFiveEighthsOfItsCharacters := by
  intro s k h
  obtain ⟨hv, rfl⟩ := base32Decode_eq_ok h
  simp only [base32Valid, Bool.and_eq_true, beq_iff_eq] at hv
  obtain ⟨⟨⟨-, hpad⟩, hlen⟩, -⟩ := hv
  exact ⟨by rw [bytesOfBits_length, length_flatMap_bitsOf5, filter_eq_base32Data hpad], hlen⟩

/-! ## The interval -/

/-- Below 30·2^64 the quotient fits the counter. -/
theorem floor_div_timeStep_mem {t : Rat} (h0 : 0 ≤ t) (h1 : t < timeStep * 2 ^ 64) :
    0 ≤ (t / timeStep).floor ∧ (t / timeStep).floor < 2 ^ 64 := by
  have hpos : (0 : Rat) < timeStep := by norm_num [timeStep]
  refine ⟨Rat.le_floor_iff.2 (by simpa using div_nonneg h0 hpos.le), Rat.floor_lt_iff.2 ?_⟩
  rw [div_lt_iff₀ hpos, mul_comm]
  exact_mod_cast h1

/-- An accepted timestamp has the exact floor as its counter (48_host_reference.md R184). -/
theorem interval_of_accepted {t : Rat} (h0 : 0 ≤ t) (h1 : t < timeStep * 2 ^ 64) :
    ∃ c, interval (.seconds t) = .ok c ∧ (c.toNat : Int) = (t / timeStep).floor := by
  obtain ⟨hnn, hlt⟩ := floor_div_timeStep_mem h0 h1
  refine ⟨_, if_pos ⟨h0, h1⟩, ?_⟩
  rw [BitVec.toNat_ofNat]
  omega

theorem interval_of_refused {t : Rat} (h : t < 0 ∨ timeStep * 2 ^ 64 ≤ t) :
    interval (.seconds t) = .error .badTimestamp := by
  refine if_neg fun ⟨h0, h1⟩ => ?_
  rcases h with h | h
  · exact absurd h0 (not_le.2 h)
  · exact absurd h1 (not_lt.2 h)

/-- Settles O53: inside the range the floor fits 64 bits; outside it the host refuses. -/
theorem intervalIsTheExactFloorOrRefused : Obligations.IntervalIsTheExactFloorOrRefused :=
  ⟨rfl, fun _ => ⟨interval_of_accepted, interval_of_refused⟩⟩

/-- Only an accepted timestamp has a counter, so the counter is the floor. -/
theorem toNat_of_interval_eq_ok {t : Rat} {c : BitVec 64} (h : interval (.seconds t) = .ok c) :
    (c.toNat : Int) = (t / timeStep).floor := by
  by_cases hr : t < 0 ∨ timeStep * 2 ^ 64 ≤ t
  · rw [interval_of_refused hr] at h
    cases h
  · obtain ⟨h0, h1⟩ := not_or.1 hr
    obtain ⟨d, hd, hfloor⟩ := interval_of_accepted (not_lt.1 h0) (not_le.1 h1)
    rw [h] at hd
    cases hd
    exact hfloor

/-- Settles O54: the floor is non-decreasing. -/
theorem intervalIsMonotone : Obligations.IntervalIsMonotone := by
  intro t u c d htu hc hd
  have hle : (t / timeStep).floor ≤ (u / timeStep).floor :=
    Rat.floor_monotone (div_le_div_of_nonneg_right htu (Nat.cast_nonneg timeStep))
  rw [← toNat_of_interval_eq_ok hc, ← toNat_of_interval_eq_ok hd] at hle
  exact_mod_cast hle

/-! ## Truncation -/

theorem truncateOffset_eq (d : List Byte) : truncateOffset d = (d.getD 19 0).toNat % 16 := by
  rw [truncateOffset, BitVec.toNat_and]
  exact Nat.and_two_pow_sub_one_eq_mod _ 4

/-- The four bytes are those of the word at the offset, and a digest has them all. -/
theorem truncate_eq {d : List Byte} (h : truncateOffset d + 4 ≤ d.length) :
    truncate d = (d.drop (truncateOffset d)).take 4 := by
  rw [← bytesOf_leadingWord (by rw [List.length_drop]; omega), leadingWord_drop, bytesOf_wordOf, truncate]

/-- Settles O55: the offset is at most 15. -/
theorem truncateTakesFourBytesInside : Obligations.TruncateTakesFourBytesInside := by
  intro d hd
  have hoff := truncateOffset_eq d
  exact ⟨hoff, by omega, truncate_eq (by omega)⟩

/-! ## The digits of a code -/

theorem foldCode_eq (a b c d : Byte) :
    foldCode [a, b, c, d]
      = (a.toNat * 2 ^ 24 + b.toNat * 2 ^ 16 + c.toNat * 2 ^ 8 + d.toNat) % 2 ^ 31 % 1000000 := by
  rw [← wordOf_toNat, ← Nat.and_two_pow_sub_one_eq_mod]
  rfl

theorem decimalPadded_length {n : Nat} (h : n < 10 ^ 6) : (decimalPadded n).length = 6 := by
  have hlen : (Nat.toDigits 10 n).length ≤ 6 := (Nat.length_toDigits_le_iff (by decide) (by decide)).2 h
  rw [decimalPadded, codeLen, List.length_append, List.length_replicate]
  omega

theorem isDigit_of_mem_decimalPadded {n : Nat} {x : Char} (h : x ∈ decimalPadded n) : x.isDigit = true := by
  rcases List.mem_append.1 h with h | h
  · rw [List.eq_of_mem_replicate h]
    rfl
  · exact Nat.isDigit_of_mem_toDigits (by decide) (by decide) h

/-- The zeros put before a number add nothing to its value. -/
theorem ofDigitChars_replicate_zero (k : Nat) : Nat.ofDigitChars 10 (List.replicate k '0') 0 = 0 := by
  induction k with
  | zero => rfl
  | succ k ih => exact ih

theorem ofDigitChars_decimalPadded (n : Nat) : Nat.ofDigitChars 10 (decimalPadded n) 0 = n := by
  rw [decimalPadded, Nat.ofDigitChars_append, ofDigitChars_replicate_zero,
    Nat.ofDigitChars_toDigits (by decide) (by decide)]

/-- Settles O56: the code is below 10^6, so its digits and the zeros before them are six. -/
theorem foldGivesTheCodeInSixDigits : Obligations.FoldGivesTheCodeInSixDigits := fun a b c d =>
  ⟨foldCode_eq a b c d, decimalPadded_length (Nat.mod_lt _ (by decide)), fun _ => isDigit_of_mem_decimalPadded,
    ofDigitChars_decimalPadded _⟩

/-! `BlockMac` on the bus (48_host_reference.md R186): its accesses as runs of the machine. -/

/-! ## Runs of reads, commands and the engine's turn -/

/-- An `RD` runs to the same registers, its response recorded. -/
theorem RunsTo.rd (m : Nat) (r : Reg) (s : State) :
    RunsTo [rd m r] s (respond (readAccess m r.offset) ⟨.okay, some (readReg s.toBlock r)⟩ s) := fun _ =>
  run_event 0 (perform_rd m r _)

/-- A command pseudo-operation runs to what the command leaves, its response recorded. -/
theorem RunsTo.cmd (m : Nat) {i : Instr} {s u : State}
    (h : ∀ rest, exec i { s with inputs := rest } = .next { u with inputs := rest }) :
    RunsTo [cmd m i] s (respond (writeAccess m (Reg.offset .cmd) (encode i)) ⟨.okay, none⟩ u) :=
  .wr m fun rest => (commandWrite_of_decode (decode_encode i) _).trans (h rest)

/-- A W1C write runs to the flags it leaves (40_bus_access.md R103). -/
theorem runsTo_writeStatus (m : Nat) (v : Word) (s : State) :
    RunsTo [wr m .status v] s (respond (writeAccess m (Reg.offset .status) v) ⟨.okay, none⟩ (writeStatus v s)) :=
  RunsTo.wr m fun _ => rfl

theorem runsTo_zeroize (m : Nat) {s : State} (hb : s.status.busy = false) :
    RunsTo [cmd m .zeroize] s
      (respond (writeAccess m (Reg.offset .cmd) (encode .zeroize)) ⟨.okay, none⟩ (zeroize s)) :=
  RunsTo.cmd m fun rest => exec_zeroize_of_idle (s := { s with inputs := rest }) hb

/-- The log entry of an `RD` of the register r of the block b. -/
def readEntry (m : Nat) (b : Block) (r : Reg) : Access × Response :=
  (readAccess m r.offset, ⟨.okay, some (readReg b r)⟩)

/-- Reads leave their entries in the log and change nothing else (20_memory.md R57). -/
theorem runsTo_reads (m : Nat) (rs : List Reg) (s : State) :
    RunsTo (rs.map (rd m)) s { s with log := (rs.map (readEntry m s.toBlock)).reverse ++ s.log } := by
  induction rs generalizing s with
  | nil => exact .nil s
  | cons r rs ih =>
    have h := (RunsTo.rd m r s).append (ih _)
    simpa [readEntry, respond] using h

/-- Polling changes no register, however often. -/
theorem runsTo_poll (m n : Nat) (r : Reg) (s : State) : ∃ t, RunsTo (poll m n r) s t ∧ t.toBlock = s.toBlock := by
  have h := runsTo_reads m (List.replicate n r) s
  rw [List.map_replicate] at h
  exact ⟨_, h, rfl⟩

/-! ## The operands -/

/-- The part of `BlockMac` before its command: `LOADKEY`, `LOADMSG` and the W1C write of every flag
(48_host_reference.md R186). -/
def loadOperands (m : Nat) (k : List Byte) (c : BitVec 64) : List Event :=
  loadKey m k ++ loadMsg m c ++ [wr m .status 0x0000001E]

/-- The block is idle with every flag clear and holds operands that HMAC takes to HMAC_SHA1(k, bytes8(c)). -/
structure OperandsLoaded (k : List Byte) (c : BitVec 64) (b : Block) : Prop where
  flags_clear : b.status = ⟨false, false, false, false, false⟩
  key_length_legal : b.keyLen.toNat ≤ 64
  digest : b.hmacDigest = digestWords (hmacSha1 k (bytesOf64 c))

theorem runsTo_loadOperands {s : State} (hb : s.status.busy = false) (m : Nat) {k : List Byte} (hk : k.length ≤ 64)
    (c : BitVec 64) :
    ∃ t, RunsTo (loadOperands m k c) s t ∧ OperandsLoaded k c t.toBlock ∧ t.irqEn = s.irqEn := by
  obtain ⟨u, hsu, hu, hlen, hkey⟩ := runsTo_loadKey hb m hk
  obtain ⟨t, hut, ht, hmsg⟩ := runsTo_loadMsg (s := u) (by rw [hu, hb]) m c
  have hkl : t.keyLen.toNat = k.length := by rw [ht, hlen]
  have hkb : t.keyBytes k.length = k := by
    rw [ht]
    exact hkey
  have hbt : t.status.busy = false := by rw [ht, hu, hb]
  have hclear : t.status.w1c 0x0000001E = ⟨false, false, false, false, false⟩ := by simp [Status.w1c, hbt]
  have hirq : t.irqEn = s.irqEn := by rw [ht, hu]
  refine ⟨_, (hsu.append hut).append (runsTo_writeStatus m _ t), ⟨hclear, hkl.trans_le hk, ?_⟩, hirq⟩
  change digestWords (hmacSha1 (t.keyBytes t.keyLen.toNat) t.message) = _
  rw [hkl, hkb, hmsg]

/-! ## The command and its digest -/

/-- The block computes d, with no error. -/
structure Computing (d : Vector Word 5) (b : Block) : Prop where
  busy_alone : b.status = ⟨true, false, false, false, false⟩
  pending : b.pending = some d

theorem OperandsLoaded.computing {k : List Byte} {c : BitVec 64} {s : State} (h : OperandsLoaded k c s.toBlock) :
    Computing (digestWords (hmacSha1 k (bytesOf64 c))) (acceptHmac s).toBlock where
  busy_alone := by rw [acceptHmac_status, h.flags_clear]
  pending := by rw [acceptHmac_pending, h.digest]

/-- On loaded operands the command is accepted (41_commands.md R132). -/
theorem OperandsLoaded.exec_hmac {k : List Byte} {c : BitVec 64} {s : State} (h : OperandsLoaded k c s.toBlock) :
    exec .hmac s = .next (acceptHmac s) :=
  exec_hmac_accepted (by rw [h.flags_clear]) h.key_length_legal

theorem OperandsLoaded.runsTo (m : Nat) {k : List Byte} {c : BitVec 64} {s : State}
    (h : OperandsLoaded k c s.toBlock) :
    RunsTo [cmd m .hmac] s
      (respond (writeAccess m (Reg.offset .cmd) (encode .hmac)) ⟨.okay, none⟩ (acceptHmac s)) :=
  RunsTo.cmd m fun rest => h.exec_hmac (s := { s with inputs := rest })

/-- The registers a completed command without an error leaves, d published. -/
def digestReady (e : IrqEn) (d : Vector Word 5) : Block :=
  { Block.reset with status := ⟨false, true, false, false, false⟩, irqEn := e, dig := d }

/-- The engine's turn publishes the digest (41_commands.md R135). -/
theorem Computing.engineTurn {d : Vector Word 5} {s : State} (h : Computing d s.toBlock) :
    engineTurn s = .next (completeWith d s) :=
  engineTurn_of_pending (by rw [h.busy_alone]) h.pending

theorem Computing.completeWith_toBlock {d : Vector Word 5} {s : State} (h : Computing d s.toBlock) :
    (completeWith d s).toBlock = digestReady s.irqEn d := by
  simp only [completeWith, setBusyDone, setPending, wipeOperands, setDigest, h.busy_alone]
  rfl

theorem RunsTo.engine {d : Vector Word 5} {s : State} (h : Computing d s.toBlock) :
    RunsTo [.engine] s (completeWith d s) := fun rest =>
  run_event 0 (h.engineTurn (s := { s with inputs := rest }))

/-- The registers of `READDIG` (30_encoding.md R81). -/
def digestRegs : List Reg := [.dig 0, .dig 1, .dig 2, .dig 3, .dig 4]

/-- `READDIG` returns the whole digest. -/
theorem map_readReg_digestRegs (b : Block) : digestRegs.map (readReg b) = b.dig.toList := by
  change [b.dig[0], b.dig[1], b.dig[2], b.dig[3], b.dig[4]] = _
  match b.dig with
  | ⟨⟨[_, _, _, _, _]⟩, _⟩ => rfl

/-- The registers `BlockMac` reads after its wait (48_host_reference.md R186). -/
def readBackRegs : List Reg := .status :: digestRegs

/-- The part of `BlockMac` after its wait: the status read, the digest, and the wipe (48_host_reference.md R186). -/
def readBack (m : Nat) : List Event := readBackRegs.map (rd m) ++ [ackDone m, cmd m .zeroize]

/-- What the read-back puts into the log of a block b, newest first. -/
def readBackLog (m : Nat) (b : Block) : List (Access × Response) :=
  [(writeAccess m (Reg.offset .cmd) (encode .zeroize), ⟨.okay, none⟩),
    (writeAccess m (Reg.offset .status) 0x00000002, ⟨.okay, none⟩)] ++ (readBackRegs.map (readEntry m b)).reverse

theorem readBackLog_data (m : Nat) (b : Block) :
    ((readBackLog m b).reverse.map fun p => p.2.data)
      = some b.status.toWord :: (b.dig.toList.map some ++ [none, none]) := by
  rw [← map_readReg_digestRegs]
  rfl

theorem runsTo_readBack {s : State} {e : IrqEn} {d : Vector Word 5} (hs : s.toBlock = digestReady e d) (m : Nat) :
    ∃ t, RunsTo (readBack m) s t ∧ t.log = readBackLog m s.toBlock ++ s.log
      ∧ t.toBlock = { Block.reset with status := ⟨false, true, false, false, false⟩, irqEn := e } := by
  refine ⟨_, (runsTo_reads m readBackRegs s).append <| (runsTo_writeStatus m 0x00000002 _).append <|
    runsTo_zeroize m ?_, rfl, ?_⟩
  · simp [hs, digestReady]
  · simp only [respond_toBlock, zeroize, setBusyDone, setDigest, wipeOperands, writeStatus, hs]
    rfl

/-! ## The sequence -/

/-- The key the host loads fits the block (42_sha1_hmac.md R157). -/
theorem hostKey_length_le (k : List Byte) : (hostKey k).length ≤ 64 := by
  unfold hostKey
  split
  · rw [sha1_length]
    decide
  · exact Nat.le_of_not_lt ‹_›

theorem blockMacEvents_eq (m : Nat) (k : List Byte) (c : BitVec 64) (n0 n1 n2 : Nat) :
    blockMacEvents m k c n0 n1 n2 = poll m n0 .status ++ (loadOperands m k c ++ ([cmd m .hmac]
      ++ (poll m n1 .status ++ ([.engine] ++ (poll m n2 .status ++ readBack m))))) := by
  simp [blockMacEvents, loadOperands, readBack, readBackRegs, digestRegs, readDig]

/-- From an idle block the events of `BlockMac` publish the digest, read it back and wipe. -/
theorem runsTo_blockMacEvents {s : State} (hb : s.status.busy = false) (m n0 n1 n2 : Nat) {k : List Byte}
    (hk : k.length ≤ 64) (c : BitVec 64) :
    ∃ t, RunsTo (blockMacEvents m k c n0 n1 n2) s t
      ∧ t.log.take 8 = readBackLog m (digestReady s.irqEn (digestWords (hmacSha1 k (bytesOf64 c))))
      ∧ t.toBlock = { Block.reset with status := ⟨false, true, false, false, false⟩, irqEn := s.irqEn } := by
  obtain ⟨s0, hpoll0, hs0⟩ := runsTo_poll m n0 .status s
  obtain ⟨s1, hload, hready, hirq⟩ := runsTo_loadOperands (s := s0) (by rw [hs0, hb]) m hk c
  obtain ⟨s2, hpoll1, hs2⟩ := runsTo_poll m n1 .status
    (respond (writeAccess m (Reg.offset .cmd) (encode .hmac)) ⟨.okay, none⟩ (acceptHmac s1))
  have hcomp : Computing _ s2.toBlock := hs2 ▸ hready.computing
  have hirq2 : s2.irqEn = s.irqEn := by rw [hs2, ← hs0, ← hirq]; rfl
  obtain ⟨s3, hpoll2, hs3⟩ := runsTo_poll m n2 .status (completeWith (digestWords (hmacSha1 k (bytesOf64 c))) s2)
  obtain ⟨t, hread, hlog, ht⟩ := runsTo_readBack (hs3.trans hcomp.completeWith_toBlock) m
  refine ⟨t, ?_, ?_, by rw [ht, hirq2]⟩
  · rw [blockMacEvents_eq]
    exact hpoll0.append <| hload.append <| (hready.runsTo m).append <| hpoll1.append <|
      (RunsTo.engine hcomp).append <| hpoll2.append hread
  · rw [hlog, hs3, hcomp.completeWith_toBlock, hirq2]
    rfl

/-- Settles O51: the run of `runsTo_blockMacEvents` with the key the host loads. -/
theorem blockMacSequenceReadsTheDigest : Obligations.BlockMacSequenceReadsTheDigest := by
  intro s m n0 n1 n2 k c hb
  obtain ⟨t, hrun, hlog, ht⟩ := runsTo_blockMacEvents hb m n0 n1 n2 (hostKey_length_le k) c
  refine ⟨{ t with inputs := s.inputs }, Status.toWord ⟨false, true, false, false, false⟩, hrun s.inputs, rfl,
    by decide, ?_, ?_, ?_, fun h => if_neg (Nat.not_lt_of_le h), fun h => if_pos h, ht⟩
  · rw [hlog, readBackLog_data]
    rfl
  · rw [hlog]
    rfl
  · rw [hlog]
    simp [readBackLog, readEntry]

/-! The host's programs beside the block (48_host_reference.md R180, R186): the failed status check, `BlockMac` under
every schedule of host and engine, and `generate_code`. -/

/-! ## The status check -/

/-- The mask of `WAITDONE` (30_encoding.md R81) is that of `BUSY`. -/
theorem toWord_and_one_eq_zero_iff (f : Status) : f.toWord &&& 0x00000001 = 0x00000000 ↔ f.busy = false := by
  obtain ⟨busy, done, errCmd, errKeyLen, errBusy⟩ := f
  decide +revert

/-- The test of 48_host_reference.md R186 on the word of the flags. -/
theorem statusShowsDigest_toWord (f : Status) : statusShowsDigest f.toWord = (f.done && !f.anyError) := by
  obtain ⟨busy, done, errCmd, errKeyLen, errBusy⟩ := f
  decide +revert

/-- A host turn at a transaction that reads a register: the program is given the register's word. -/
theorem turn_host_readReg {σ : System} (r : Reg) (ha : σ.host.nextAccess = some (readAccess σ.host.master r.offset)) :
    σ.turn .host = .next
      ⟨respond (readAccess σ.host.master r.offset) ⟨.okay, some (readReg σ.machine.toBlock r)⟩ σ.machine,
        σ.host.receive (readReg σ.machine.toBlock r)⟩ := by
  rw [turn_host ha (perform_rd σ.host.master r σ.machine), answered_okay, Option.getD_some]

/-- Settles O59: the failed test ends the program with its failure, and no turn changes a program that has failed. -/
theorem failedStatusCheckIsSurfaced : Obligations.FailedStatusCheckIsSurfaced := by
  refine ⟨statusShowsDigest_toWord, fun σ rest ht hf => ?_⟩
  have htest : statusShowsDigest (readReg σ.machine.toBlock .status) = false := by
    rw [readReg, statusShowsDigest_toWord]
    rcases hf with h | h <;> simp [h]
  have hfail : σ.host.receive (readReg σ.machine.toBlock .status) = σ.host.fail .macFailed := by
    simp [HostProcess.receive, ht, htest]
  refine ⟨_, turn_host_readReg .status (nextAccess_of_todo_cons ht), rfl, fun turns υ hrun => ?_⟩
  have hυ := run_of_failed (by rw [hfail, fail_todo]) (by rw [hfail, fail_failed]) hrun
  rw [hυ, hfail]
  exact ⟨rfl, rfl, rfl⟩

/-! ## Turns -/

/-- An engine's turn that the block answers tells the program nothing. -/
theorem turn_engine {σ : System} {t : State} (h : engineTurn σ.machine = .next t) :
    σ.turn (.other .engine) = .next { σ with machine := t } :=
  congrArg (mapNext _) h

/-- A program that has ended takes its turns without an effect. -/
theorem turn_host_of_ended {σ : System} (ht : σ.host.todo = []) : σ.turn .host = .next σ := by
  simp [System.turn, nextAccess_of_ended ht, HostProcess.observeIrq, ht]

/-- A poll for BUSY = 0 goes on while the block is busy. -/
theorem turn_host_waitDone_of_busy {σ : System} {rest : List HostOp} (ht : σ.host.todo = waitDone :: rest)
    (hb : σ.machine.status.busy = true) :
    ∃ t, σ.turn .host = .next { σ with machine := t } ∧ t.toBlock = σ.machine.toBlock := by
  have hstay : σ.host.receive σ.machine.status.toWord = σ.host := by
    have hne : ¬ σ.machine.status.toWord &&& 0x00000001 = 0x00000000 := by
      rw [toWord_and_one_eq_zero_iff, hb]
      decide
    simp only [HostProcess.receive, ht, waitDone, if_neg hne]
  have hturn := turn_host_readReg .status (nextAccess_of_todo_cons ht)
  rw [readReg, hstay] at hturn
  exact ⟨_, hturn, rfl⟩

/-- What every turn of a kind keeps, every schedule of such turns keeps. -/
theorem run_keeps {P : System → Prop} {Q : Turn → Prop}
    (hkeep : ∀ σ tn, P σ → Q tn → ∃ τ, σ.turn tn = .next τ ∧ P τ) {turns : List Turn} {σ : System} (hσ : P σ)
    (hturns : ∀ tn ∈ turns, Q tn) : ∃ υ, σ.run turns = .next υ ∧ P υ := by
  induction turns generalizing σ with
  | nil => exact ⟨σ, rfl, hσ⟩
  | cons tn rest ih =>
    obtain ⟨τ, hτ, hPτ⟩ := hkeep σ tn hσ (hturns tn List.mem_cons_self)
    rw [run_turn hτ]
    exact ih hPτ fun x hx => hturns x (List.mem_cons_of_mem tn hx)

/-! ## Stretches of host turns on an idle block -/

/-- n host turns, each on an idle block and before the program's end, lead to a system of which P holds. An engine's
turn among them changes nothing. -/
inductive Reaches (P : System → Prop) : Nat → System → Prop
  | here {σ : System} (h : P σ) : Reaches P 0 σ
  | turn {n : Nat} {σ τ : System} (hb : σ.machine.status.busy = false) (ho : σ.host.outcome = none)
      (ht : σ.turn .host = .next τ) (h : Reaches P n τ) : Reaches P (n + 1) σ

/-- Host turns enough lead there, and stay there where host turns keep P. -/
theorem Reaches.run_of_le {P : System → Prop} (hkeep : ∀ σ, P σ → ∃ τ, σ.turn .host = .next τ ∧ P τ) {n a : Nat}
    {σ : System} (h : Reaches P n σ) (hle : n ≤ a) : ∃ τ, σ.run (List.replicate a .host) = .next τ ∧ P τ := by
  induction h generalizing a with
  | here hσ =>
    refine run_keeps (Q := (· = .host)) (fun σ tn hσ htn => ?_) hσ fun _ => List.eq_of_mem_replicate
    rw [htn]
    exact hkeep σ hσ
  | turn hb ho ht h ih =>
    obtain ⟨b, rfl⟩ : ∃ b, a = b + 1 := ⟨a - 1, by omega⟩
    rw [List.replicate_succ, run_turn ht]
    exact ih (by omega)

section
variable {P : System → Prop} {n m : Nat} {s : State} {rest : List HostOp} {ws : List Word}

/-- A poll for BUSY = 0 is left at once on an idle block. -/
theorem Reaches.waitDone (hb : s.status.busy = false)
    (h : ∀ t, t.toBlock = s.toBlock → Reaches P n ⟨t, ⟨m, rest, ws, none, false⟩⟩) :
    Reaches P (n + 1) ⟨s, ⟨m, Machine.waitDone :: rest, ws, none, false⟩⟩ := by
  have hleft : HostProcess.receive s.status.toWord ⟨m, Machine.waitDone :: rest, ws, none, false⟩
      = ⟨m, rest, ws, none, false⟩ := if_pos ((toWord_and_one_eq_zero_iff s.status).2 hb)
  refine .turn hb rfl (turn_host_readReg .status rfl) ?_
  rw [readReg, hleft]
  exact h _ rfl

/-- A status that shows a digest passes the test. -/
theorem Reaches.check (hb : s.status.busy = false) (hs : statusShowsDigest s.status.toWord = true)
    (h : ∀ t, t.toBlock = s.toBlock → Reaches P n ⟨t, ⟨m, rest, ws, none, false⟩⟩) :
    Reaches P (n + 1) ⟨s, ⟨m, .check :: rest, ws, none, false⟩⟩ := by
  have hpass : HostProcess.receive s.status.toWord ⟨m, .check :: rest, ws, none, false⟩
      = ⟨m, rest, ws, none, false⟩ := if_pos hs
  refine .turn hb rfl (turn_host_readReg .status rfl) ?_
  rw [readReg, hpass]
  exact h _ rfl

/-- The reads of the registers rs keep their words. -/
theorem Reaches.reads (rs : List Reg) (hb : s.status.busy = false)
    (h : ∀ t, t.toBlock = s.toBlock → Reaches P n ⟨t, ⟨m, rest, ws ++ rs.map (readReg s.toBlock), none, false⟩⟩) :
    Reaches P (n + rs.length) ⟨s, ⟨m, rs.map (fun r => .rd r.offset) ++ rest, ws, none, false⟩⟩ := by
  induction rs generalizing s ws with
  | nil =>
    rw [List.map_nil, List.append_nil] at h
    exact h s rfl
  | cons r rs ih =>
    refine .turn hb rfl (turn_host_readReg r rfl) (ih hb fun t ht => ?_)
    rw [List.append_assoc]
    exact h t ht

theorem Reaches.wr {r : Reg} {v : Word} {u : State} (hb : s.status.busy = false) (hw : writeReg r v s = .next u)
    (h : Reaches P n ⟨respond (writeAccess m r.offset v) ⟨.okay, none⟩ u, ⟨m, rest, ws, none, false⟩⟩) :
    Reaches P (n + 1) ⟨s, ⟨m, .wr r.offset v :: rest, ws, none, false⟩⟩ :=
  .turn hb rfl (turn_host rfl ((perform_wr m r v s).trans (congrArg _ hw))) h

theorem Reaches.cmd {i : Instr} {u : State} (hb : s.status.busy = false) (he : exec i s = .next u)
    (h : Reaches P n
      ⟨respond (writeAccess m (Reg.offset .cmd) (encode i)) ⟨.okay, none⟩ u, ⟨m, rest, ws, none, false⟩⟩) :
    Reaches P (n + 1) ⟨s, ⟨m, .wr (Reg.offset .cmd) (encode i) :: rest, ws, none, false⟩⟩ :=
  .wr hb ((commandWrite_of_decode (decode_encode i) s).trans he) h

end

/-! ## The load -/

/-- A `WR` by master m for each register and word. -/
def writes (m : Nat) (ps : List (Reg × Word)) : List Event := ps.map fun p => wr m p.1 p.2

theorem transactionsOf_writes (m : Nat) (ps : List (Reg × Word)) :
    transactionsOf (writes m ps) = ps.map fun p => .wr p.1.offset p.2 := by
  simp [transactionsOf, writes, wr, List.filterMap_map, Function.comp_def]

/-- The key words are writes of registers other than `CMD`, the same for every master. -/
theorem loadKeyWords_eq_writes (i : Nat) (k : List Byte) :
    ∃ ps, (∀ p ∈ ps, p.1 ≠ .cmd) ∧ ∀ m, loadKeyWords m i k = writes m ps := by
  by_cases h0 : k = []
  · exact ⟨[], by simp, fun m => by rw [h0]; rfl⟩
  · have hpos := List.length_pos_iff.2 h0
    obtain ⟨ps, hps, heq⟩ := loadKeyWords_eq_writes (i + 1) (k.drop 4)
    refine ⟨(.keyw (Fin.ofNat 16 i), leadingWord k) :: ps, by simpa using hps, fun m => ?_⟩
    rw [loadKeyWords_of_ne_nil m i h0, heq]
    rfl
termination_by k.length
decreasing_by
  rw [List.length_drop]
  omega

/-- So are all accesses of `BlockMac` before its command. -/
theorem loadOperands_eq_writes (k : List Byte) (c : BitVec 64) :
    ∃ ps, (∀ p ∈ ps, p.1 ≠ .cmd) ∧ ∀ m, loadOperands m k c = writes m ps := by
  obtain ⟨ps, hps, heq⟩ := loadKeyWords_eq_writes 0 k
  refine ⟨ps ++ [(.keyLen, BitVec.ofNat 32 k.length), (.msgHi, c.extractLsb' 32 32), (.msgLo, c.extractLsb' 0 32),
    (.status, 0x0000001E)], fun p hp => ?_, fun m => ?_⟩
  · rcases List.mem_append.1 hp with hp | hp
    · exact hps p hp
    · fin_cases hp <;> simp
  · simp [loadOperands, loadKey, loadMsg, heq, writes]

/-- The register r takes v on the idle block s and leaves it idle, whatever events come after. -/
def TakesIdle (r : Reg) (v : Word) (s : State) : Prop :=
  ∃ u : State, u.status.busy = false
    ∧ ∀ rest, writeReg r v { s with inputs := rest } = .next { u with inputs := rest }

/-- A register under the lock whose write does f. -/
theorem takesIdle_of_lock {r : Reg} {v : Word} {s : State} (f : Block → Block)
    (hf : ∀ u : State, writeReg r v u = .next (unlessBusy u { u with toBlock := f u.toBlock }))
    (hb : s.status.busy = false) (hfb : (f s.toBlock).status.busy = false) : TakesIdle r v s :=
  ⟨{ s with toBlock := f s.toBlock }, hfb, fun _ => (hf _).trans (congrArg _ (unlessBusy_of_idle _ hb))⟩

/-- Of the registers only `CMD` can start a command. -/
theorem takesIdle_of_ne_cmd {r : Reg} (hr : r ≠ .cmd) (v : Word) {s : State} (hb : s.status.busy = false) :
    TakesIdle r v s := by
  cases r with
  | cmd => exact absurd rfl hr
  | id | dig _ | reserved => exact ⟨s, hb, fun _ => rfl⟩
  | status => exact ⟨writeStatus v s, hb, fun _ => rfl⟩
  | irqEn => exact ⟨writeIrqEn v s, hb, fun _ => rfl⟩
  | keyLen => exact takesIdle_of_lock (fun b => { b with keyLen := keyLenOfWord v }) (fun _ => rfl) hb hb
  | msgHi => exact takesIdle_of_lock (fun b => { b with msgHi := v }) (fun _ => rfl) hb hb
  | msgLo => exact takesIdle_of_lock (fun b => { b with msgLo := v }) (fun _ => rfl) hb hb
  | keyw i => exact takesIdle_of_lock (fun b => { b with keyw := b.keyw.set i v }) (fun _ => rfl) hb hb

/-- A run goes on from what its first event leaves. -/
theorem RunsTo.tail {e : Event} {es : List Event} {s t u : State} (h : RunsTo (e :: es) s t)
    (he : ∀ rest, perform e { s with inputs := rest } = .next { u with inputs := rest }) : RunsTo es u t := fun rest =>
  (run_event es.length (he (es ++ rest))).symm.trans (h rest)

/-- The host's turns at writes to registers other than `CMD` leave the registers that the run of these writes leaves. -/
theorem Reaches.writes {P : System → Prop} {n m : Nat} {rest : List HostOp} {ws : List Word} {ps : List (Reg × Word)}
    {s t : State} (hps : ∀ p ∈ ps, p.1 ≠ .cmd) (hrun : RunsTo (Machine.writes m ps) s t) (hb : s.status.busy = false)
    (h : ∀ t', t'.toBlock = t.toBlock → Reaches P n ⟨t', ⟨m, rest, ws, none, false⟩⟩) :
    Reaches P (n + ps.length) ⟨s, ⟨m, ps.map (fun p => .wr p.1.offset p.2) ++ rest, ws, none, false⟩⟩ := by
  induction ps generalizing s with
  | nil =>
    have hst : ({ s with inputs := [] } : State) = { t with inputs := [] } := Host.Outcome.next.inj (hrun [])
    exact h s (State.mk.inj hst).1
  | cons p ps ih =>
    obtain ⟨u, hu, hw⟩ := takesIdle_of_ne_cmd (hps p List.mem_cons_self) p.2 hb
    refine .wr hb (hw s.inputs) (ih (fun q hq => hps q (List.mem_cons_of_mem p hq)) (hrun.tail fun l => ?_) hu)
    exact (perform_wr m p.1 p.2 _).trans (congrArg _ (hw l))

/-! ## `BlockMac` beside the block -/

/-- The transactions that take the digest, after the test: `READDIG`, `ACKDONE`, `CMD.ZEROIZE`. -/
def readDigestOps : List HostOp :=
  digestRegs.map (fun r => .rd r.offset)
    ++ [.wr (Reg.offset .status) 0x00000002, .wr (Reg.offset .cmd) (encode .zeroize)]

theorem transactionsOf_append (es fs : List Event) :
    transactionsOf (es ++ fs) = transactionsOf es ++ transactionsOf fs :=
  List.filterMap_append

/-- The wait, the load, the command, the wait, the test, the digest. -/
theorem blockMacProgram_eq (m : Nat) (k : List Byte) (c : BitVec 64) :
    blockMacProgram k c = waitDone :: (transactionsOf (loadOperands m k c)
      ++ .wr (Reg.offset .cmd) (encode .hmac) :: waitDone :: .check :: readDigestOps) := by
  obtain ⟨ps, -, heq⟩ := loadOperands_eq_writes k c
  have hmaster : transactionsOf (loadOperands 0 k c) = transactionsOf (loadOperands m k c) := by
    rw [heq 0, heq m, transactionsOf_writes, transactionsOf_writes]
  have hload : loadKey 0 k ++ loadMsg 0 c ++ [wr 0 .status 0x0000001E, cmd 0 .hmac]
      = loadOperands 0 k c ++ [cmd 0 .hmac] := by
    simp [loadOperands]
  rw [blockMacProgram, hload, ← hmaster, transactionsOf_append, List.append_assoc, List.append_assoc, List.append_assoc]
  rfl

theorem loadOperands_length (m : Nat) (k : List Byte) (c : BitVec 64) :
    (loadOperands m k c).length = (loadKey m k).length + 3 := by
  simp [loadOperands, loadMsg]

/-- The command is accepted and computes d; the program polls. -/
structure Polling (m : Nat) (d : Vector Word 5) (σ : System) : Prop where
  host : σ.host = ⟨m, waitDone :: .check :: readDigestOps, [], none, false⟩
  computing : Computing d σ.machine.toBlock

/-- The program has read d and made its last access, and the block is idle. -/
structure HasDigest (m : Nat) (d : Vector Word 5) (σ : System) : Prop where
  host : σ.host = ⟨m, [], d.toList, none, false⟩
  idle : σ.machine.status.busy = false

theorem Polling.turn_host {m : Nat} {d : Vector Word 5} {σ : System} (h : Polling m d σ) :
    ∃ τ, σ.turn .host = .next τ ∧ Polling m d τ := by
  obtain ⟨t, ht, htb⟩ := turn_host_waitDone_of_busy (by rw [h.host]) (by rw [h.computing.busy_alone])
  exact ⟨_, ht, h.host, htb ▸ h.computing⟩

/-- From an idle block the program waits no longer, loads its operands and has its command accepted. -/
theorem reaches_polling {s : State} (hb : s.status.busy = false) (m : Nat) {k : List Byte} (hk : k.length ≤ 64)
    (c : BitVec 64) :
    Reaches (Polling m (digestWords (hmacSha1 k (bytesOf64 c)))) ((loadKey m k).length + 5)
      ⟨s, .start m (blockMacProgram k c)⟩ := by
  obtain ⟨ps, hps, heq⟩ := loadOperands_eq_writes k c
  have hlen : (loadKey m k).length + 5 = 0 + 1 + ps.length + 1 := by
    have hload := loadOperands_length m k c
    rw [heq m, writes, List.length_map] at hload
    omega
  rw [blockMacProgram_eq m, heq m, transactionsOf_writes, hlen]
  refine .waitDone hb fun s0 hs0 => ?_
  have hb0 : s0.status.busy = false := by rw [hs0, hb]
  obtain ⟨t, hrun, hready, -⟩ := runsTo_loadOperands hb0 m hk c
  rw [heq m] at hrun
  refine .writes hps hrun hb0 fun s1 hs1 => ?_
  rw [← hs1] at hready
  exact .cmd (by rw [hready.flags_clear]) hready.exec_hmac (.here ⟨rfl, hready.computing⟩)

/-- Once the digest is published the program leaves its wait, passes the test, reads the digest and wipes. -/
theorem reaches_hasDigest {s : State} {e : IrqEn} {d : Vector Word 5} (hs : s.toBlock = digestReady e d) (m : Nat) :
    Reaches (HasDigest m d) 9 ⟨s, ⟨m, waitDone :: .check :: readDigestOps, [], none, false⟩⟩ := by
  have idle {t : State} (ht : t.toBlock = digestReady e d) : t.status.busy = false := by rw [ht]; rfl
  change Reaches _ (0 + 1 + 1 + digestRegs.length + 1 + 1) _
  refine .waitDone (idle hs) fun s0 hs0 => ?_
  rw [hs] at hs0
  refine .check (idle hs0) (by rw [hs0, statusShowsDigest_toWord]; rfl) fun s1 hs1 => ?_
  rw [hs0] at hs1
  refine .reads digestRegs (idle hs1) fun s2 hs2 => ?_
  rw [hs1] at hs2
  rw [map_readReg_digestRegs, hs1]
  have hb2 : s2.status.busy = false := idle hs2
  have hb3 : (respond (writeAccess m (Reg.offset .status) 0x00000002) ⟨.okay, none⟩
      (writeStatus 0x00000002 s2)).status.busy = false := hb2
  exact .wr hb2 rfl (.cmd hb3 (exec_zeroize_of_idle hb3) (.here ⟨rfl, hb3⟩))

/-- `BlockMac` of d under host turns and engine's turns: it waits for another command to complete, or host turns on an
idle block lead on to the acceptance of its own command, or to its end. -/
inductive BlockMacRun (m : Nat) (k : List Byte) (c : BitVec 64) (d : Vector Word 5) : System → Prop
  | waiting {s : State} (hs : Inv s) (hb : s.status.busy = true) :
      BlockMacRun m k c d ⟨s, .start m (blockMacProgram k c)⟩
  | loading {n : Nat} {σ : System} (h : Reaches (Polling m d) n σ) : BlockMacRun m k c d σ
  | reading {n : Nat} {σ : System} (h : Reaches (HasDigest m d) n σ) : BlockMacRun m k c d σ

section
variable {m : Nat} {k : List Byte} {c : BitVec 64} {d : Vector Word 5} {σ : System}

/-- Before its end the program is under way; at its end it has the bytes of d. -/
theorem BlockMacRun.outcome (h : BlockMacRun m k c d σ) :
    σ.host.outcome = none ∨ σ.host.outcome = some (.ok (d.toList.flatMap bytesOf)) := by
  cases h with
  | waiting => exact .inl rfl
  | loading h =>
    cases h with
    | here h => exact .inl (by rw [h.host]; rfl)
    | turn _ ho => exact .inl ho
  | reading h =>
    cases h with
    | here h => exact .inr (by rw [h.host]; rfl)
    | turn _ ho => exact .inl ho

theorem HasDigest.turn (h : HasDigest m d σ) {tn : Turn} (htn : tn = .host ∨ tn = .other .engine) :
    σ.turn tn = .next σ := by
  rcases htn with rfl | rfl
  · exact turn_host_of_ended (by rw [h.host])
  · exact turn_engine (engineTurn_of_idle h.idle)

/-- The engine's turn publishes the digest, and the program goes on to read it. -/
theorem Polling.turn_engine (h : Polling m d σ) :
    ∃ τ, σ.turn (.other .engine) = .next τ ∧ Reaches (HasDigest m d) 9 τ := by
  refine ⟨_, Machine.turn_engine h.computing.engineTurn, ?_⟩
  rw [h.host]
  exact reaches_hasDigest h.computing.completeWith_toBlock m

/-- A turn on the way to P goes on towards P, or P holds already. -/
theorem Reaches.turn_cases {P : System → Prop} {n : Nat} (h : Reaches P n σ) {tn : Turn}
    (htn : tn = .host ∨ tn = .other .engine) :
    P σ ∨ ∃ τ j, σ.turn tn = .next τ ∧ Reaches P j τ := by
  cases h with
  | here h => exact .inl h
  | turn hb ho ht h =>
    rcases htn with rfl | rfl
    · exact .inr ⟨_, _, ht, h⟩
    · exact .inr ⟨_, _, turn_engine (engineTurn_of_idle hb), .turn hb ho ht h⟩

end

/-- Every turn of host or engine is answered and keeps the run of `BlockMac` going. -/
theorem BlockMacRun.turn {m : Nat} {k : List Byte} {c : BitVec 64} {σ : System} (hk : k.length ≤ 64)
    (h : BlockMacRun m k c (digestWords (hmacSha1 k (bytesOf64 c))) σ) {tn : Turn}
    (htn : tn = .host ∨ tn = .other .engine) :
    ∃ τ, σ.turn tn = .next τ ∧ BlockMacRun m k c (digestWords (hmacSha1 k (bytesOf64 c))) τ := by
  cases h with
  | @waiting s hs hb =>
    rcases htn with rfl | rfl
    · obtain ⟨t, ht, htb⟩ := turn_host_waitDone_of_busy (σ := ⟨s, .start m (blockMacProgram k c)⟩) rfl hb
      exact ⟨_, ht, .waiting (hs.of_toBlock_eq htb) (by rw [htb, hb])⟩
    · obtain ⟨d, hd⟩ := Option.isSome_iff_exists.1 (hs.pending_iff_busy.trans hb)
      exact ⟨_, turn_engine (engineTurn_of_pending hb hd), .loading (reaches_polling rfl m hk c)⟩
  | loading h =>
    rcases h.turn_cases htn with hp | ⟨τ, n, hτ, hn⟩
    · rcases htn with rfl | rfl
      · obtain ⟨τ, hτ, hpτ⟩ := hp.turn_host
        exact ⟨τ, hτ, .loading (.here hpτ)⟩
      · obtain ⟨τ, hτ, hr⟩ := hp.turn_engine
        exact ⟨τ, hτ, .reading hr⟩
    · exact ⟨τ, hτ, .loading hn⟩
  | reading h =>
    rcases h.turn_cases htn with hd | ⟨τ, n, hτ, hn⟩
    · exact ⟨σ, hd.turn htn, .reading (.here hd)⟩
    · exact ⟨τ, hτ, .reading hn⟩

/-- The words of a 20-byte digest have its bytes. -/
theorem flatMap_bytesOf_digestWords {d : List Byte} (hd : d.length = 20) :
    (digestWords d).toList.flatMap bytesOf = d := by
  refine List.ext_getElem? fun j => ?_
  by_cases hj : j < 20
  · have hword : (digestWords d).toList.getD (j / 4) 0 = leadingWord (d.drop (4 * (j / 4))) := by
      have h := digestWords_getElem d ⟨j / 4, by omega⟩
      rw [List.getD_eq_getElem _ _ (by simp; omega), Vector.getElem_toList]
      exact h
    rw [getElem?_flatMap_bytesOf _ (by simpa using hj), hword, bytesOf_leadingWord (by rw [List.length_drop]; omega),
      List.getElem?_take_of_lt (by omega), List.getElem?_drop, Nat.div_add_mod]
  · rw [List.getElem?_eq_none (by simp; omega), List.getElem?_eq_none (by omega)]

/-- Settles O58: `BlockMacRun` holds at the start and is kept by every turn; from an idle block the turns lead to its
last phase by their number. -/
theorem blockMacGivesTheDigestOrIsUnderWay : Obligations.BlockMacGivesTheDigestOrIsUnderWay := by
  refine ⟨fun s m k c turns hs hturns => ?_, fun s m k c a b hb ha hb9 => ?_⟩
  · have hstart : BlockMacRun m (hostKey k) c (digestWords (blockMac k c)) ⟨s, blockMacHost m k c⟩ := by
      cases hb : s.status.busy with
      | true => exact .waiting hs hb
      | false => exact .loading (reaches_polling hb m (hostKey_length_le k) c)
    obtain ⟨σ, hσ, hrun⟩ := run_keeps (fun _ _ h => h.turn (hostKey_length_le k)) hstart hturns
    have ho := hrun.outcome
    rw [flatMap_bytesOf_digestWords (d := blockMac k c) (hmacSha1_length _ _)] at ho
    exact ⟨σ, hσ, ho⟩
  · obtain ⟨σ, hσ, hp⟩ :=
      (reaches_polling hb m (hostKey_length_le k) c).run_of_le (fun _ => Polling.turn_host) ha
    obtain ⟨τ, hτ, hr⟩ := hp.turn_engine
    obtain ⟨υ, hυ, hd⟩ := hr.run_of_le (fun σ h => ⟨σ, h.turn (.inl rfl), h⟩) hb9
    refine ⟨υ, ?_, ?_, system_runOver_iff.2 ⟨hd.idle, by simp [hd.host]⟩⟩
    · rw [List.append_assoc, List.singleton_append]
      exact (run_turns_append hσ).trans ((run_turn hτ).trans hυ)
    · have ho : υ.host.outcome = some (.ok ((digestWords (blockMac k c)).toList.flatMap bytesOf)) := by
        rw [hd.host]
        rfl
      rw [ho, flatMap_bytesOf_digestWords (d := blockMac k c) (hmacSha1_length _ _)]
      rfl

/-! ## `generate_code` -/

/-- A decoded secret is the key, and the interval decides the rest. -/
theorem hostOperands_of_decoded {secret : List Char} {k : List Byte} (hk : base32Decode secret = .ok k)
    (ts : Option Timestamp) (now : Timestamp) :
    hostOperands secret ts now = (interval (ts.getD now)).map fun c => (k, c) := by
  rw [hostOperands, hk]
  cases interval (ts.getD now) <;> rfl

theorem hostOperands_error {secret : List Char} {ts : Option Timestamp} {now : Timestamp} {e : HostError}
    (h : base32Decode secret = .error e
      ∨ ∃ k, base32Decode secret = .ok k ∧ interval (ts.getD now) = .error e) :
    hostOperands secret ts now = .error e := by
  rcases h with h | ⟨k, hk, hc⟩
  · rw [hostOperands, h]
    rfl
  · rw [hostOperands_of_decoded hk, hc]
    rfl

theorem codeHost_of_error {secret : List Char} {ts : Option Timestamp} {now : Timestamp} {e : HostError} (m : Nat)
    (h : hostOperands secret ts now = .error e) : codeHost m secret ts now = (HostProcess.start m []).fail e := by
  simp only [codeHost, h]

theorem codeHost_of_operands {secret : List Char} {ts : Option Timestamp} {now : Timestamp} {k : List Byte}
    {c : BitVec 64} (m : Nat) (hk : base32Decode secret = .ok k) (hc : interval (ts.getD now) = .ok c) :
    codeHost m secret ts now = blockMacHost m k c := by
  rw [codeHost, hostOperands_of_decoded hk, hc]
  rfl

/-- `generate_code` gives the code of how the program ended. -/
theorem generateCode_of_run {secret : List Char} {ts : Option Timestamp} {now : Timestamp} {m : Nat} {turns : List Turn}
    {s : State} {σ : System} (h : System.run turns ⟨s, codeHost m secret ts now⟩ = .next σ) :
    generateCode secret ts now m turns s = .next (σ.machine, σ.host.outcome.map (Except.map codeOf)) := by
  rw [generateCode, h]
  rfl

/-- Settles O60: a failure before the block leaves a program that has failed; otherwise the code is that of the outcome
of `BlockMac`. -/
theorem generateCodeIsThePipelineOrItsFirstFailure : Obligations.GenerateCodeIsThePipelineOrItsFirstFailure := by
  refine fun secret ts now m turns s => ⟨fun e he => ?_, fun k c hk hc => ?_⟩
  · have hhost := codeHost_of_error m (hostOperands_error he)
    have htodo : (codeHost m secret ts now).todo = [] := by rw [hhost, fail_todo]
    refine ⟨nextAccess_of_ended htodo, fun σ hσ => ?_⟩
    have hσh : σ.host = codeHost m secret ts now := run_of_failed (e := e) htodo (by rw [hhost, fail_failed]) hσ
    refine ⟨hσh, ?_⟩
    rw [generateCode_of_run hσ, hσh, hhost, fail_outcome]
    rfl
  · have hhost := codeHost_of_operands m hk hc
    refine ⟨hhost, fun σ e hσ ho => ?_, fun hs hturns => ?_⟩
    · rw [generateCode_of_run hσ, ho]
      rfl
    · obtain ⟨σ, hσ, ho⟩ := blockMacGivesTheDigestOrIsUnderWay.1 s m k c turns hs hturns
      refine ⟨_, _, generateCode_of_run (hhost ▸ hσ), ?_⟩
      rcases ho with ho | ho
      · exact .inl (by rw [ho]; rfl)
      · exact .inr (by rw [ho]; rfl)

end Sys2Proof.Machine

/-! The statements of 60_exceptions.md: which error an access raises and what it changes, how an error bit falls, how the
interrupt level drops, and that the master of an access decides nothing. -/

namespace Sys2Proof.Machine

/-! ## The error an access raises -/

/-- What an access has to be for each error of 60_exceptions.md R204 to be the one it raises: `accessError` as a relation,
one constructor per cause. -/
inductive Raises (a : Access) (b : Block) : ErrorCause → Prop
  | busError (hw : a.wellFormed = false) : Raises a b .busError
  | errBusy {v : Word} (hw : a.wellFormed = true) (hv : a.write = some v) (hb : b.status.busy = true)
      (hl : (regAt a.off).locked = true) : Raises a b .errBusy
  | errCmd {v : Word} (hw : a.wellFormed = true) (hv : a.write = some v) (hb : b.status.busy = false)
      (hr : regAt a.off = .cmd) (hd : (decode v).isReserved = true) : Raises a b .errCmd
  | errKeyLen {v : Word} (hw : a.wellFormed = true) (hv : a.write = some v) (hb : b.status.busy = false)
      (hr : regAt a.off = .cmd) (hd : decode v = .instr .hmac) (hk : 64 < b.keyLen.toNat) : Raises a b .errKeyLen

/-- The first test of `accessError` is the check of width and alignment. -/
theorem illFormed_iff {a : Access} :
    (a.bytes ≠ 4 ∨ a.off.extractLsb' 0 2 ≠ 0#2) ↔ a.wellFormed = false := by
  simp [Access.wellFormed, Access.widthOk, Access.aligned, imp_iff_not_or]

/-- `CMD` is a locked register, so on a busy block a write to it never reaches the later tests. -/
theorem accessError_eq_some_iff {a : Access} {b : Block} {c : ErrorCause} :
    accessError a b = some c ↔ Raises a b c := by
  simp only [accessError, illFormed_iff]
  constructor
  · intro h
    cases hw : a.wellFormed with
    | false =>
      rw [if_pos hw] at h
      cases h
      exact .busError hw
    | true =>
      cases hv : a.write with
      | none => simp [hw, hv] at h
      | some v =>
        simp only [hw, hv, Bool.true_eq_false, if_false] at h
        have hidle (hl : ¬(b.status.busy = true ∧ (regAt a.off).locked = true)) (hr : regAt a.off = .cmd) :
            b.status.busy = false := by simpa [hr, Reg.locked] using hl
        split_ifs at h with hl hc hk <;> cases h
        · obtain ⟨hb, hl⟩ := hl
          exact .errBusy hw hv hb hl
        · obtain ⟨hr, hd⟩ := hc
          exact .errCmd hw hv (hidle hl hr) hr hd
        · obtain ⟨hr, hd, hk⟩ := hk
          exact .errKeyLen hw hv (hidle hl hr) hr hd hk
  · intro h
    cases h with
    | busError hw => exact if_pos hw
    | errBusy hw hv hb hl => simp [hw, hv, hb, hl]
    | errCmd hw hv hb hr hd => simp [hw, hv, hb, hr, hd]
    | errKeyLen hw hv hb hr hd hk => simp [hw, hv, hb, hr, hd, hk, Decoded.isReserved]

/-- A well-formed write is answered with the register write of its value. -/
theorem step_wellFormed_write {s u : State} {a : Access} {v : Word} (hw : a.wellFormed = true)
    (hv : a.write = some v) (h : writeReg (regAt a.off) v s = .next u) :
    step (s.facing (.bus a)) = .next (respond a ⟨.okay, none⟩ u) := by
  change busAccess a s = _
  simp [busAccess, hw, hv, h]

/-- An access that raises an error does nothing but set its bit (60_exceptions.md R202). -/
theorem Raises.changes_only_its_bit {a : Access} {s : State} {c : ErrorCause} (h : Raises a s.toBlock c) :
    ∃ t, step (s.facing (.bus a)) = .next t ∧ t.toBlock = (raiseError c s).toBlock := by
  cases h with
  | busError hw => exact ⟨_, step_illFormed s hw, rfl⟩
  | errBusy hw hv hb hl => exact ⟨_, step_wellFormed_write hw hv (writeReg_locked_of_busy hl _ hb), rfl⟩
  | errCmd hw hv hb hr hd =>
    refine ⟨_, step_wellFormed_write hw hv ?_, respond_toBlock _ _ _⟩
    rw [hr, writeReg, commandWrite_of_reserved hb ((decode_isReserved_iff _).1 hd)]
  | errKeyLen hw hv hb hr hd hk =>
    refine ⟨_, step_wellFormed_write hw hv ?_, respond_toBlock _ _ _⟩
    rw [hr, writeReg, commandWrite_of_decode hd, exec_hmac_rejected hb hk]

/-! ## How the error bits change -/

/-- What a step can do to the error bits: a coarser reading of `BlockStep`, with the event that does it. -/
inductive ErrorStep (s : State) : Status → Prop
  | kept {f : Status} (hc : f.errCmd = s.status.errCmd) (hk : f.errKeyLen = s.status.errKeyLen)
      (hb : f.errBusy = s.status.errBusy) : ErrorStep s f
  | raised {a : Access} {c : ErrorCause} (ha : s.nextEvent.access = some a) (h : Raises a s.toBlock c) :
      ErrorStep s (s.status.setError c)
  | statusWrite {m : Nat} {v : Word} (ha : s.nextEvent.access = some (writeAccess m 0x008 v)) :
      ErrorStep s (s.status.w1c v)
  | reset {held : List Access} (he : s.nextEvent = .reset held) : ErrorStep s Block.reset.status

theorem BlockStep.errorStep {s : State} {b : Block} (h : BlockStep s b) : ErrorStep s b.status := by
  cases h with
  | reset he => exact .reset he
  | lockedWrite hw hl hb =>
    obtain ⟨a, ha, hw, rfl, hv⟩ := hw
    exact .raised ha (.errBusy hw hv hb hl)
  | statusWrite hw =>
    obtain ⟨m, ha⟩ := hw.access (by simp)
    exact .statusWrite ha
  | reservedCommand hw hb hd =>
    obtain ⟨a, ha, hw, hr, hv⟩ := hw
    exact .raised ha (.errCmd hw hv hb hr (by rw [hd, Decoded.isReserved]))
  | hmacRejected hw hb hd hk =>
    obtain ⟨a, ha, hw, hr, hv⟩ := hw
    exact .raised ha (.errKeyLen hw hv hb hr hd hk)
  | _ => exact .kept rfl rfl rfl

theorem step_errorStep {s t : State} (h : step s = .next t) : ErrorStep s t.status :=
  (step_blockStep h).errorStep

@[simp] theorem w1c_done (v : Word) (f : Status) : (f.w1c v).done = (f.done && !v.getLsbD 1) := rfl
@[simp] theorem w1c_errCmd (v : Word) (f : Status) : (f.w1c v).errCmd = (f.errCmd && !v.getLsbD 2) := rfl
@[simp] theorem w1c_errKeyLen (v : Word) (f : Status) : (f.w1c v).errKeyLen = (f.errKeyLen && !v.getLsbD 3) := rfl
@[simp] theorem w1c_errBusy (v : Word) (f : Status) : (f.w1c v).errBusy = (f.errBusy && !v.getLsbD 4) := rfl

/-- `f` has no error bit that `g` has not. -/
def Status.ErrorsSubset (f g : Status) : Prop :=
  (f.errBusy = true → g.errBusy = true) ∧ (f.errCmd = true → g.errCmd = true)
    ∧ (f.errKeyLen = true → g.errKeyLen = true)

theorem w1c_errorsSubset (v : Word) (f : Status) : (f.w1c v).ErrorsSubset f := by
  simp +contextual [Status.ErrorsSubset]

theorem errorsSubset_setError (c : ErrorCause) (f : Status) : f.ErrorsSubset (f.setError c) := by
  cases c <;> simp [Status.ErrorsSubset, Status.setError]

/-- Without an access that raises an error no step sets an error bit. -/
theorem ErrorStep.errorsSubset {s : State} {f : Status} (h : ErrorStep s f)
    (hn : ∀ a c, s.nextEvent.access = some a → ¬ Raises a s.toBlock c) : f.ErrorsSubset s.status := by
  cases h with
  | kept hc hk hb => exact ⟨hb.symm ▸ id, hc.symm ▸ id, hk.symm ▸ id⟩
  | raised ha h => exact absurd h (hn _ _ ha)
  | statusWrite => exact w1c_errorsSubset _ _
  | reset => exact ⟨nofun, nofun, nofun⟩

/-- Settles O34: an access that raises an error does nothing else, and no other access sets an error bit. -/
theorem eachAccessRaisesAtMostItsFirstError : Obligations.EachAccessRaisesAtMostItsFirstError := by
  intro s a
  cases h : accessError a s.toBlock with
  | some c =>
    obtain ⟨t, ht, hblock⟩ := (accessError_eq_some_iff.1 h).changes_only_its_bit
    refine ⟨t, ht, ?_⟩
    cases c <;> exact hblock
  | none =>
    obtain ⟨t, ht⟩ := busAccess_answers_next a s
    have hn (c : ErrorCause) : ¬ Raises a s.toBlock c := by simp [← accessError_eq_some_iff, h]
    exact ⟨t, ht, (step_errorStep (s := s.facing (.bus a)) ht).errorsSubset fun _ c ha => Option.some.inj ha ▸ hn c⟩

/-- Settles O35: of the changes to the error bits only W1C and reset lower one. -/
theorem errorBitsAreSticky : Obligations.ErrorBitsAreSticky := by
  intro s t h
  have hstep := step_errorStep h
  generalize t.status = f at hstep ⊢
  cases hstep with
  | kept hc hk hb => simp +contextual [hc, hk, hb]
  | @raised _ c =>
    obtain ⟨hb, hc, hk⟩ := errorsSubset_setError c s.status
    simp +contextual [hb, hc, hk]
  | statusWrite ha =>
    refine ⟨fun hs ht => .inr ⟨_, _, ha, ?_⟩, fun hs ht => .inr ⟨_, _, ha, ?_⟩, fun hs ht => .inr ⟨_, _, ha, ?_⟩⟩
    all_goals simpa [hs] using ht
  | reset he => exact ⟨fun _ _ => .inl ⟨_, he⟩, fun _ _ => .inl ⟨_, he⟩, fun _ _ => .inl ⟨_, he⟩⟩

/-! ## The interrupt level -/

/-- Settles O37: no enabled bit that was pending survives the W1C write. -/
theorem clearingEnabledPendingBitsDropsIrq : Obligations.ClearingEnabledPendingBitsDropsIrq := by
  intro s m v hdone herr
  refine ⟨respond _ _ (writeStatus v s), step_write s m v (by decide), ?_⟩
  rw [← Bool.not_eq_true, irq_iff, anyError_iff]
  simp only [respond_toBlock, writeStatus_irqEn, writeStatus_status, w1c_done, w1c_errCmd, w1c_errKeyLen, w1c_errBusy,
    Bool.and_eq_true, Bool.not_eq_true']
  rintro (⟨hie, hset, hv⟩ | ⟨hie, herrs⟩)
  · cases hv.symm.trans (hdone hie hset)
  · obtain ⟨hc, hk, hb⟩ := herr hie
    rcases herrs with ⟨hset, hv⟩ | ⟨hset, hv⟩ | ⟨hset, hv⟩
    · cases hv.symm.trans (hc hset)
    · cases hv.symm.trans (hk hset)
    · cases hv.symm.trans (hb hset)

/-! ## Bus errors, and the master of an access -/

/-- Settles O33: any other access is answered by the error response alone. -/
theorem otherAccessesGetABusErrorOnly : Obligations.OtherAccessesGetABusErrorOnly := by
  intro s a h
  have hw : a.wellFormed = false := Bool.eq_false_iff.2 (mt wellFormed_iff.1 (by omega))
  rw [step_illFormed s hw, respond, busErrorResponse]
  cases a.write <;> rfl

/-- The response to an access and what becomes of the registers are the same for every master, which is a label in the
log alone. -/
theorem step_bus_of_any_master (s : State) (off : Offset) (bytes : Nat) (w : Option Word) :
    ∃ r u, ∀ m, step (s.facing (.bus ⟨m, off, bytes, w⟩)) = .next (respond ⟨m, off, bytes, w⟩ r u) := by
  by_cases hw : bytes = 4 ∧ off.toNat % 4 = 0
  · obtain ⟨rfl, ha⟩ := hw
    cases w with
    | none => exact ⟨_, s, fun m => step_read s m ha⟩
    | some v =>
      obtain ⟨u, hu⟩ := writeReg_answers_next (regAt off) v s
      exact ⟨_, u, fun m => by rw [step_write s m v ha, hu, onNext_next]⟩
  · exact ⟨busErrorResponse ⟨0, off, bytes, w⟩, s, fun m =>
      step_illFormed (a := ⟨m, off, bytes, w⟩) s (Bool.eq_false_iff.2 (mt wellFormed_iff.1 hw))⟩

/-- Settles O46: the two steps differ in the label of one entry of the log. -/
theorem mastersAreServedAlike : Obligations.MastersAreServedAlike := by
  intro s m n off bytes w
  obtain ⟨r, u, h⟩ := step_bus_of_any_master s off bytes w
  exact ⟨_, _, h m, h n, rfl, rfl, rfl⟩

end Sys2Proof.Machine

/-! The statements of 70_reset_and_hazards.md: the registers after a reset, and the answers to the accesses that overlap
it. -/

namespace Sys2Proof.Machine

/-! ## The registers after a reset -/

/-- A reset is never refused. -/
theorem step_reset (s : State) (held : List Access) : step (s.facing (.reset held)) = .next (resetStep held s) := rfl

@[simp] theorem reset_keyw_getElem (i : Fin 16) : Block.reset.keyw[i] = 0 := Vector.getElem_replicate i.isLt

@[simp] theorem reset_dig_getElem (i : Fin 5) : Block.reset.dig[i] = 0 := Vector.getElem_replicate i.isLt

/-- Settles O1: `resetStep` leaves `Block.reset`, whose vectors of key words and digest words are 0 at every index. -/
theorem resetRestoresEveryRegister : Obligations.ResetRestoresEveryRegister := by
  intro s held
  refine ⟨resetStep held s, step_reset s held, ?_⟩
  rw [resetStep_toBlock, resetStep_inputs]
  exact ⟨rfl, rfl, rfl, rfl, rfl, rfl, rfl, rfl, rfl, rfl, reset_keyw_getElem, reset_dig_getElem, rfl, rfl, rfl, rfl⟩

/-- Settles O2: the block is idle, no digest is pending, and the key length is the marker. -/
theorem resetStateMeetsInvariant : Obligations.ResetStateMeetsInvariant :=
  inv_of_idle rfl rfl (.inr rfl)

/-! ## The accesses that overlap a reset -/

/-- The log's entries for accesses answered while reset is held, newest first, the oldest with the k-th free values. -/
def heldEntries (k : Nat) (held : List Access) : List (Access × Response) :=
  ((held.zipIdx k).map fun p => (p.1, heldResponse p.2 p.1)).reverse

theorem heldEntries_cons (k : Nat) (a : Access) (held : List Access) :
    heldEntries k (a :: held) = heldEntries (k + 1) held ++ [(a, heldResponse k a)] := by
  simp [heldEntries]

/-- Each access overlapping a reset adds its entry to the log. -/
@[simp] theorem answerHeld_log (held : List Access) (s : State) :
    (answerHeld held s).log = heldEntries s.resetAccesses held ++ s.log := by
  induction held generalizing s with
  | nil => rfl
  | cons a rest ih => simp [answerHeld, ih, heldEntries_cons]

@[simp] theorem resetStep_log (held : List Access) (s : State) :
    (resetStep held s).log = heldEntries s.resetAccesses held ++ s.log := by
  simp [resetStep]

@[simp] theorem heldEntries_length (k : Nat) (held : List Access) : (heldEntries k held).length = held.length := by
  simp [heldEntries]

@[simp] theorem heldEntries_map_fst (k : Nat) (held : List Access) :
    (heldEntries k held).map Prod.fst = held.reverse := by
  simp [heldEntries, Function.comp_def]

@[simp] theorem heldResponse_data_isSome (k : Nat) (a : Access) :
    (heldResponse k a).data.isSome = a.write.isNone := by
  cases h : a.write <;> simp [heldResponse, h]

/-- Data goes with a read and with no write. -/
theorem data_isSome_of_mem_heldEntries {k : Nat} {held : List Access} {p : Access × Response}
    (hp : p ∈ heldEntries k held) : p.2.data.isSome = p.1.write.isNone := by
  obtain ⟨⟨a, j⟩, -, rfl⟩ := List.mem_map.1 (List.mem_reverse.1 hp)
  exact heldResponse_data_isSome j a

/-- Settles O3: the log is `heldEntries` above the old log, one entry for each access. -/
theorem heldAccessesAreOnlyAnswered : Obligations.HeldAccessesAreOnlyAnswered := by
  intro s held
  refine ⟨resetStep held s, step_reset s held, resetStep_toBlock held s, ?_⟩
  rw [resetStep_log]
  refine ⟨by rw [List.map_append, heldEntries_map_fst], List.drop_left' (heldEntries_length _ _), ?_⟩
  rw [List.take_left' (heldEntries_length _ _)]
  exact fun _ => data_isSome_of_mem_heldEntries

end Sys2Proof.Machine
